-- ==== Sys2Proof/Word.lean ====
section
/-! DEFINITION. The word types of QDEC: what the spec treats as bits (R5, R47 to R51). Bit 0 is the least
significant bit of every value (00_scope.md section 6). -/

namespace Sys2Proof

/-- RAW, the 8-bit raw sample of one group (R47). -/
abbrev Raw := BitVec 8

/-- PAIR, the 2-bit reading of one channel (R48): HI is bit 1, LO is bit 0. -/
abbrev Pair := BitVec 2

/-- TC, the 4-bit transition code (R49): previous pair in bits 3:2, current pair in bits 1:0. -/
abbrev TransCode := BitVec 4

/-- CTRW, the 32-bit counter word (R51). -/
abbrev CtrWord := BitVec 32

end Sys2Proof
end

