-- ==== Sys2Proof/Config.lean ====
section
/-! DEFINITION. What is fixed for one QDEC (R5), the parameters the spec leaves OPEN (R6), and the free value
the environment answers with. -/

namespace Sys2Proof.Config

/-- Groups, channels per group, channels in all (R5). -/
def nGroups : Nat := 4
def nChan : Nat := 4
def nCtr : Nat := 16

/-- Widths in bits: raw sample, pair, transition code, counter; entries of the decode table (R5). -/
def rawW : Nat := 8
def pairW : Nat := 2
def tcW : Nat := 4
def ctrW : Nat := 32
def lutN : Nat := 16

/-- FREE VALUE: the byte the environment presents at the `n`-th `ReadGroup` call of the run, where no answer
is queued in `State.answers` (R29: a draw, any of the 256 values, under no law). It has no body, so nothing can
be proved of it. -/
opaque freeSample : Nat → Raw

/-- OPEN (R6, D14): `true` where line A of every encoder is wired to the HI bit of its pair. No rule reads it. -/
opaque abMapHiIsA : Bool

/-- OPEN (R6, D11): the widest access an external transport performs indivisibly, less than 32 bits. No rule
reads it. -/
opaque atomicGranuleBits : Fin 32

/-- OPEN (R6, D11): the byte lanes (R33) in the order an external transport sends them. No rule reads it. -/
opaque xportByteOrder : List (Fin 4)

/-- OPEN (R6, D20): duration of a micro-step, and rate at which a group is sampled. No rule reads them. -/
opaque tUstep : Nat
opaque fSample : Nat

end Sys2Proof.Config
end

