-- ==== Sys2Proof/Syntax.lean ====
section
/-! DEFINITION. The syntax of QDEC: groups, channels, micro-steps and the sequencer position, the operations of
`spec/opcode_table.json` (one constructor of `Instr` per row), the words that name them (`Request`), and the
lines of the script notation (R59, R60). What can be an enumeration is one, so the patterns the spec says never
occur (R58, U14) have no term. -/

namespace Sys2Proof

/-- A group (R52, R54): A, B, C, D, numbered 0 to 3 in the processing order. -/
inductive Group where
  | a | b | c | d
  deriving DecidableEq, Repr

/-- A channel index within its group, 0 to 3 (R13). -/
abbrev Chan := Fin 4

/-- The six micro-steps of a SAMPLE (R18, R100): RD, CH0 to CH3, LATCH. -/
inductive UStep where
  | rd
  | ch (c : Chan)
  | latch
  deriving DecidableEq, Repr

/-- The sequencer position `SEQ` (R18): exactly the 28 legal values, 4 seed positions `(SEED, g, RD)` and 24 run
positions `(RUN, g, u)`. -/
inductive Seq where
  | seed (g : Group)
  | run (g : Group) (u : UStep)
  deriving DecidableEq, Repr

/-- DELTA, the output of the decode table (R50): 0, +1 or -1. -/
inductive Delta where
  | zero | plus | minus
  deriving DecidableEq, Repr

/-- The four classes of transition (R62). -/
inductive TransClass where
  | stay | fwd | bwd | amb
  deriving DecidableEq, Repr

/-- One constructor per row of `spec/opcode_table.json`.
Format TC: the sixteen transition codes (R63 to R78), the channel being the one `SEQ` selects.
Format DELTA: the three effects of CHDEC (R86 to R88).
Format SEQ_OP: SEED.g (R98), and SAMPLE.g (R99) with the `uuu` field of its word.
Format SEQ_USTEP: the micro-steps of SAMPLE.g (R100) with the `gg` field of their word.
Format CTRADDR: RDCTR (R107) with its counter address.  Format RST: RESET (R110). -/
inductive Instr where
  | stay00
  | bwd00_01
  | fwd00_10
  | amb00_11
  | fwd01_00
  | stay01
  | amb01_10
  | bwd01_11
  | bwd10_00
  | amb10_01
  | stay10
  | fwd10_11
  | amb11_00
  | fwd11_01
  | bwd11_10
  | stay11
  | hold
  | inc
  | dec
  | seedA
  | seedB
  | seedC
  | seedD
  | sampleA (u : UStep)
  | sampleB (u : UStep)
  | sampleC (u : UStep)
  | sampleD (u : UStep)
  | ustepRd (g : Group)
  | ustepCh0 (g : Group)
  | ustepCh1 (g : Group)
  | ustepCh2 (g : Group)
  | ustepCh3 (g : Group)
  | ustepLatch (g : Group)
  | rdctr (g : Group) (c : Chan)
  | reset
  deriving DecidableEq, Repr

/-- The formats of the opcode table (30_encoding.md). The formats overlap as numbers (the word 0 is STAY.00, HOLD,
SEED.A and RDCTR A,0), so a word means something only together with its format. -/
inductive Format where
  | tc | delta | seqOp | seqUstep | ctrAddr | rst
  deriving DecidableEq, Repr

/-- A word that names an operation: its format and its bits, bit 0 least significant, in one byte. -/
structure Request where
  fmt : Format
  bits : BitVec 8
  deriving DecidableEq, Repr

/-- Why a word names no operation: the patterns the spec says never occur (R50, R55, R58, U14), by name. -/
inductive DecodeError where
  /-- A bit above the format's width is set. -/
  | wordTooWide
  /-- DELTA `10` (-2) is never produced (R50). -/
  | deltaNeverProduced
  /-- USTEP 6 and 7 never occur (R55). -/
  | ustepNeverOccurs
  /-- With PHASE = 0 only USTEP = 0 occurs (R55). -/
  | seedHasOneUstep
  /-- A micro-step word of a SAMPLE has PHASE = 1 (R100). -/
  | notARunPosition
  /-- The reset input is not asserted (R110). -/
  | resetNotAsserted
  deriving DecidableEq, Repr

/-- A line inside a `SAMPLE g, v { … }` block (R59): one micro-step, a snapshot with the word it returns, a reset. -/
inductive InLine where
  | ustep
  | rdctr (g : Char) (c : Nat) (w : Int)
  | reset
  deriving DecidableEq, Repr

/-- A line of a script (R59), its operands as they are written: `g` a letter, `v` and `c` numerals, `w` a 32-bit
word or a signed decimal. -/
inductive Line where
  | reset
  | seed (g : Char) (v : Nat)
  | sample (g : Char) (v : Nat)
  | sampleSteps (g : Char) (v : Nat) (body : List InLine)
  | rdctr (g : Char) (c : Nat) (w : Int)
  deriving DecidableEq, Repr

end Sys2Proof
end

