-- ==== Sys2Proof/Decode.lean ====
section
/-! DEFINITION. The decoder, from a word and its format to the operation it names or the reason it names none, and
the encoder, both written from 30_encoding.md (R49, R50, R52, R53, R55), `spec/opcode_table.json` and R110. Then
the host's `decodeTableWord`, which has no format to go by. -/

namespace Sys2Proof

/-- GID (R52): A = 00, B = 01, C = 10, D = 11. -/
def Group.id : Group → Fin 4
  | .a => 0
  | .b => 1
  | .c => 2
  | .d => 3

def Group.ofId : Fin 4 → Group
  | 0 => .a
  | 1 => .b
  | 2 => .c
  | 3 => .d

/-- The USTEP field (R55): 0 = RD, 1 = CH0, 2 = CH1, 3 = CH2, 4 = CH3, 5 = LATCH. -/
def UStep.code : UStep → Nat
  | .rd => 0
  | .ch c => c.val + 1
  | .latch => 5

def UStep.ofCode : Nat → Option UStep
  | 0 => some .rd
  | 1 => some (.ch 0)
  | 2 => some (.ch 1)
  | 3 => some (.ch 2)
  | 4 => some (.ch 3)
  | 5 => some .latch
  | _ => none

/-- Bits 4:3 of a sequencer word, the group (R55). -/
def gselField (w : Nat) : Fin 4 := ⟨w / 8 % 4, Nat.mod_lt _ (by decide)⟩

/-- Format TC: the sixteen codes, P in bits 3:2, Q in bits 1:0 (R49, R63 to R78). -/
def decodeTc : Nat → Except DecodeError Instr
  | 0b0000 => .ok .stay00
  | 0b0001 => .ok .bwd00_01
  | 0b0010 => .ok .fwd00_10
  | 0b0011 => .ok .amb00_11
  | 0b0100 => .ok .fwd01_00
  | 0b0101 => .ok .stay01
  | 0b0110 => .ok .amb01_10
  | 0b0111 => .ok .bwd01_11
  | 0b1000 => .ok .bwd10_00
  | 0b1001 => .ok .amb10_01
  | 0b1010 => .ok .stay10
  | 0b1011 => .ok .fwd10_11
  | 0b1100 => .ok .amb11_00
  | 0b1101 => .ok .fwd11_01
  | 0b1110 => .ok .bwd11_10
  | 0b1111 => .ok .stay11
  | _ => .error .wordTooWide

/-- Format DELTA (R50): bit 1 the sign, bit 0 nonzero. -/
def decodeDelta : Nat → Except DecodeError Instr
  | 0b00 => .ok .hold
  | 0b01 => .ok .inc
  | 0b10 => .error .deltaNeverProduced
  | 0b11 => .ok .dec
  | _ => .error .wordTooWide

/-- The operation in progress, by `SEQ[5:3]` (R55): `0gg` SEED.g, `1gg` SAMPLE.g. -/
def seedOf : Group → Instr
  | .a => .seedA
  | .b => .seedB
  | .c => .seedC
  | .d => .seedD

def sampleOf : Group → UStep → Instr
  | .a, u => .sampleA u
  | .b, u => .sampleB u
  | .c, u => .sampleC u
  | .d, u => .sampleD u

/-- Format SEQ_OP (R55): PHASE in bit 5, GSEL in bits 4:3, USTEP in bits 2:0. -/
def decodeSeqOp (w : Nat) : Except DecodeError Instr :=
  if 64 ≤ w then .error .wordTooWide
  else if w / 32 = 0 then
    if w % 8 = 0 then .ok (seedOf (Group.ofId (gselField w))) else .error .seedHasOneUstep
  else
    match UStep.ofCode (w % 8) with
    | some u => .ok (sampleOf (Group.ofId (gselField w)) u)
    | none => .error .ustepNeverOccurs

/-- Format SEQ_USTEP (R100): `1gguuu`. -/
def ustepOf (g : Group) : UStep → Instr
  | .rd => .ustepRd g
  | .ch 0 => .ustepCh0 g
  | .ch 1 => .ustepCh1 g
  | .ch 2 => .ustepCh2 g
  | .ch 3 => .ustepCh3 g
  | .latch => .ustepLatch g

def decodeSeqUstep (w : Nat) : Except DecodeError Instr :=
  if 64 ≤ w then .error .wordTooWide
  else if w / 32 = 0 then .error .notARunPosition
  else
    match UStep.ofCode (w % 8) with
    | some u => .ok (ustepOf (Group.ofId (gselField w)) u)
    | none => .error .ustepNeverOccurs

/-- Format CTRADDR (R53): G in bits 3:2, C in bits 1:0; all 16 values legal. -/
def decodeCtrAddr (w : Nat) : Except DecodeError Instr :=
  if 16 ≤ w then .error .wordTooWide
  else .ok (.rdctr (Group.ofId ⟨w / 4 % 4, Nat.mod_lt _ (by decide)⟩) ⟨w % 4, Nat.mod_lt _ (by decide)⟩)

/-- Format RST (R110): the one-bit pattern `1`. -/
def decodeRst : Nat → Except DecodeError Instr
  | 0 => .error .resetNotAsserted
  | 1 => .ok .reset
  | _ => .error .wordTooWide

/-- The decoder: total on every word of every format, rejecting by name. -/
def decode (r : Request) : Except DecodeError Instr :=
  match r.fmt with
  | .tc => decodeTc r.bits.toNat
  | .delta => decodeDelta r.bits.toNat
  | .seqOp => decodeSeqOp r.bits.toNat
  | .seqUstep => decodeSeqUstep r.bits.toNat
  | .ctrAddr => decodeCtrAddr r.bits.toNat
  | .rst => decodeRst r.bits.toNat

/-! The encoder. -/

/-- A SEQ word (R55): `{PHASE, GSEL, USTEP}`. -/
def seqWord (phase : Nat) (g : Group) (ustep : Nat) : BitVec 8 :=
  BitVec.ofNat 8 (32 * phase + 8 * g.id.val + ustep)

/-- The word of each operation, from its row of `spec/opcode_table.json`. -/
def encode : Instr → Request
  | .stay00 => ⟨.tc, 0b0000⟩
  | .bwd00_01 => ⟨.tc, 0b0001⟩
  | .fwd00_10 => ⟨.tc, 0b0010⟩
  | .amb00_11 => ⟨.tc, 0b0011⟩
  | .fwd01_00 => ⟨.tc, 0b0100⟩
  | .stay01 => ⟨.tc, 0b0101⟩
  | .amb01_10 => ⟨.tc, 0b0110⟩
  | .bwd01_11 => ⟨.tc, 0b0111⟩
  | .bwd10_00 => ⟨.tc, 0b1000⟩
  | .amb10_01 => ⟨.tc, 0b1001⟩
  | .stay10 => ⟨.tc, 0b1010⟩
  | .fwd10_11 => ⟨.tc, 0b1011⟩
  | .amb11_00 => ⟨.tc, 0b1100⟩
  | .fwd11_01 => ⟨.tc, 0b1101⟩
  | .bwd11_10 => ⟨.tc, 0b1110⟩
  | .stay11 => ⟨.tc, 0b1111⟩
  | .hold => ⟨.delta, 0b00⟩
  | .inc => ⟨.delta, 0b01⟩
  | .dec => ⟨.delta, 0b11⟩
  | .seedA => ⟨.seqOp, seqWord 0 .a 0⟩
  | .seedB => ⟨.seqOp, seqWord 0 .b 0⟩
  | .seedC => ⟨.seqOp, seqWord 0 .c 0⟩
  | .seedD => ⟨.seqOp, seqWord 0 .d 0⟩
  | .sampleA u => ⟨.seqOp, seqWord 1 .a u.code⟩
  | .sampleB u => ⟨.seqOp, seqWord 1 .b u.code⟩
  | .sampleC u => ⟨.seqOp, seqWord 1 .c u.code⟩
  | .sampleD u => ⟨.seqOp, seqWord 1 .d u.code⟩
  | .ustepRd g => ⟨.seqUstep, seqWord 1 g 0⟩
  | .ustepCh0 g => ⟨.seqUstep, seqWord 1 g 1⟩
  | .ustepCh1 g => ⟨.seqUstep, seqWord 1 g 2⟩
  | .ustepCh2 g => ⟨.seqUstep, seqWord 1 g 3⟩
  | .ustepCh3 g => ⟨.seqUstep, seqWord 1 g 4⟩
  | .ustepLatch g => ⟨.seqUstep, seqWord 1 g 5⟩
  | .rdctr g c => ⟨.ctrAddr, BitVec.ofNat 8 (4 * g.id.val + c.val)⟩
  | .reset => ⟨.rst, 1⟩

/-- The 6-bit reference encoding of a position (R55). -/
def Seq.word : Seq → BitVec 8
  | .seed g => seqWord 0 g 0
  | .run g u => seqWord 1 g u.code

/-- The word that names the micro-step `SEQ` selects: a SEED.g is one micro-step and has a SEQ_OP word only; a
micro-step of a SAMPLE has its SEQ_USTEP word (R55, R100). -/
def Seq.request : Seq → Request
  | .seed g => ⟨.seqOp, seqWord 0 g 0⟩
  | .run g u => ⟨.seqUstep, seqWord 1 g u.code⟩

/-- The format in which a bare table word is read, the table's formats overlapping as numbers (log entry 1).
A width that is a format's own decides it: 1 bit RST, 2 bits DELTA, 4 bits TC. In a whole byte, a word below 16 is a
transition code; another word is a sequencer position: an operation (SEED.g, SAMPLE.g) where its USTEP field is 0,
else a micro-step. -/
def tableFormat (nbits w : Nat) : Option Format :=
  if 256 ≤ w then none
  else if nbits = 1 then some .rst
  else if nbits = 2 then some .delta
  else if nbits = 4 then some .tc
  else if nbits < 6 then none
  else if 8 ≤ nbits ∧ w < 16 then some .tc
  else if w % 8 = 0 ∨ w < 32 then some .seqOp
  else some .seqUstep

/-- A bare table word as a request. -/
def tableRequest (nbits w : Nat) : Option Request :=
  match tableFormat nbits w with
  | some f => some ⟨f, BitVec.ofNat 8 w⟩
  | none => none

/-- The instruction the decoder reads from a bare table word. -/
def decodeTableWord (nbits w : Nat) : Option Instr :=
  match tableRequest nbits w with
  | some r =>
    match decode r with
    | .ok i => some i
    | .error _ => none
  | none => none

end Sys2Proof
end

