-- ==== Sys2Proof/Machine/State.lean ====
section
/-! DEFINITION. The state of one QDEC (R11), the outside world's queues beside it, the outcomes, and reset. -/

namespace Sys2Proof.Machine

/-- Why a run may claim nothing further. Both are the spec's MODEL FAULT: "A register that holds no value must not be
read; a model makes such a read a model fault, not a zero" (R24; U1: "`fault` if read"; D7). No run from reset reaches
one. -/
inductive Fault where
  /-- Raised by the decoding operations of group `g` (CH0 to CH3, the TC and DELTA rows, SAMPLE.g) where `PREV[g]` holds
  no value. SAFE: the model stops where an implementation would have some bits. -/
  | prevNoValue (g : Group)
  /-- Raised by the operations that use `NEW` (CH0 to CH3, LATCH, the TC and DELTA rows, SAMPLE.g after its RD) where
  `NEW` holds no value. SAFE, for the same reason. -/
  | newNoValue
  deriving DecidableEq, Repr

/-- Why a step is no step of QDEC. -/
inductive Refusal where
  /-- An arm of `exec` that has no meaning yet. SAFE. No arm is left so. -/
  | notModelled (mnemonic : String)
  /-- Raised by every operation of CORE that is not the one `SEQ` (and, for a TC or DELTA row, the operands) selects:
  such a script line is ill formed (R59, N1 to N4) and CORE's order cannot be altered (R106). SAFE. -/
  | notSelected
  /-- Raised by `step` for a word that names no operation (R58, U14). SAFE. -/
  | illegalWord (e : DecodeError)
  deriving DecidableEq, Repr

/-- One snapshot a READER took: the counter and the word it returned (R107). -/
structure Snapshot where
  group : Group
  chan : Chan
  word : CtrWord
  deriving DecidableEq, Repr

/-- The state. The first four fields are QDEC's (R11), all of it; the last four are the model's own record of the
agents ENV, READER and RESETSRC (R7), none of which QDEC holds. -/
structure State where
  /-- `CTR[0..15]`, the counter of channel (g,c) at `4*g + c` (R12, R13). -/
  ctr : Vector CtrWord 16
  /-- `PREV[0..3]`; `none` is the spec's "no value" (R16, R23). -/
  prev : Vector (Option Raw) 4
  /-- `SEQ`, the position of the micro-step CORE performs next (R18). -/
  seq : Seq
  /-- `NEW`; `none` is the spec's "no value", which it holds outside a SAMPLE (R19, R23). -/
  new : Option Raw
  /-- The events still to come, the next one first: READER snapshots, resets, and CORE operations named by their
  words. Where it is empty CORE performs its next micro-step (log entry 5). -/
  pending : List Request
  /-- The answers ENV will give to the coming `ReadGroup` calls, the next one first; where it is empty the answer is
  the free value `Config.freeSample` (log entry 4). -/
  answers : List Raw
  /-- How many `ReadGroup` calls were answered; the index of the next free value (log entry 4). -/
  draws : Nat
  /-- The snapshots READER has taken, the latest first (log entry 6). -/
  reads : List Snapshot
  deriving DecidableEq, Repr

/-- The machine right after RESET (R23, R124): every counter 0, `PREV` and `NEW` without a value, the position
(SEED, A, RD); nothing queued, drawn or read. -/
def State.reset : State where
  ctr := Vector.replicate 16 0
  prev := Vector.replicate 4 none
  seq := .seed .a
  new := none
  pending := []
  answers := []
  draws := 0
  reads := []

end Sys2Proof.Machine
end

