-- ==== Sys2Proof/Machine/Operands.lean ====
section
/-! DEFINITION. Operand assembly and the formats' fields (R47 to R53, R56, R93), the integer a counter word stands
for (R14), and what the environment answers (R29). -/

namespace Sys2Proof.Machine

/-- The flat counter number `k = 4*g + c` (R13). -/
def flat (g : Group) (c : Chan) : Fin 16 :=
  ⟨4 * (Group.id g).val + c.val, by have := (Group.id g).isLt; have := c.isLt; omega⟩

/-- The pair of channel `c` of a raw sample, `RAW[2*c+1 : 2*c]` (R47, R56, R93). -/
def pairOf (x : Raw) (c : Chan) : Pair := x.extractLsb' (2 * c.val) 2

/-- The transition code `{p, q}` (R49, R56). -/
def tcOf (p q : Pair) : TransCode := p ++ q

/-- The previous pair, TC bits 3:2, and the current pair, TC bits 1:0 (R49). -/
def tcPrev (tc : TransCode) : Pair := tc.extractLsb' 2 2
def tcCur (tc : TransCode) : Pair := tc.extractLsb' 0 2

/-- The group transition word of a byte pair, `{TC3, TC2, TC1, TC0}` (R56). -/
def groupTransWord (p8 n8 : Raw) : BitVec 16 :=
  tcOf (pairOf p8 3) (pairOf n8 3) ++ tcOf (pairOf p8 2) (pairOf n8 2) ++
    (tcOf (pairOf p8 1) (pairOf n8 1) ++ tcOf (pairOf p8 0) (pairOf n8 0) : BitVec 8)

/-- The delta as an integer, as its 2-bit field (R50), and sign-extended to the counter's 32 bits (R56, R89). -/
def deltaVal : Delta → Int
  | .zero => 0
  | .plus => 1
  | .minus => -1

def deltaBits : Delta → BitVec 2
  | .zero => 0b00
  | .plus => 0b01
  | .minus => 0b11

def deltaWord (d : Delta) : CtrWord := (deltaBits d).signExtend 32

/-- `val(w)`, the signed integer a counter word stands for (R14, R51). -/
def val (w : CtrWord) : Int := if w.toNat < 2147483648 then w.toNat else (w.toNat : Int) - 4294967296

/-- `word(i)`, the counter word of an integer, `i mod 2^32` (00_scope.md section 6). -/
def word (i : Int) : CtrWord := BitVec.ofInt 32 i

/-- Byte lane `b` of a counter word, lane 0 the least significant (R33). -/
def byteLane (w : CtrWord) (b : Fin 4) : BitVec 8 := w.extractLsb' (8 * b.val) 8

/-- `CTR[g,c]` (R13). -/
def State.counter (s : State) (g : Group) (c : Chan) : CtrWord := s.ctr[flat g c]

/-- `PREV[g]` (R16). -/
def State.prevOf (s : State) (g : Group) : Option Raw := s.prev[Group.id g]

/-- The address space `CTRS`: `MemRead(CTRS + a, 4)` is `CTR[a]` (R28, R31, R37). -/
def State.memReadCtrs (s : State) (a : Fin 16) : CtrWord := s.ctr[a]

/-- The value `ReadGroup` returns now (R29): the answer ENV has queued, else the free value of this call. The same
answer serves whichever group asks: ENV is under no law. -/
def State.readGroup (s : State) : Raw :=
  match s.answers with
  | v :: _ => v
  | [] => Config.freeSample s.draws

end Sys2Proof.Machine
end

