-- ==== Sys2Proof/Machine/DecodeTable.lean ====
section
/-! DEFINITION. The Decode Table (40_decode_table.md): the 16-entry constant (R61), the classes (R62), the closed
form (R81) and the table packed in bits. The table of R61 is what is normative. -/

namespace Sys2Proof.Machine

/-- `LUT` in index order 0 to 15 (R61). -/
def lutTable : Vector Delta 16 :=
  #v[.zero, .minus, .plus, .zero,
     .plus, .zero, .zero, .minus,
     .minus, .zero, .zero, .plus,
     .zero, .plus, .minus, .zero]

/-- `LUT[tc]`, the address space `LUTS` (R28, R32, R61). -/
def lut (tc : TransCode) : Delta := lutTable[tc.toNat]'tc.isLt

/-- The successor of a pair in the forward cycle 00→10→11→01→00 (R62). -/
def forward (p : Pair) : Pair :=
  if p = 0b00 then 0b10 else if p = 0b10 then 0b11 else if p = 0b11 then 0b01 else 0b00

/-- The class of a transition (R62). -/
def classOf (p q : Pair) : TransClass :=
  if p = q then .stay
  else if q = forward p then .fwd
  else if p = forward q then .bwd
  else .amb

/-- The delta of each class (R62). -/
def classDelta : TransClass → Delta
  | .stay => .zero
  | .fwd => .plus
  | .bwd => .minus
  | .amb => .zero

/-- `pos`, the number of a pair along the forward cycle (R81). -/
def pos (p : Pair) : Int :=
  if p = 0b00 then 0 else if p = 0b10 then 1 else if p = 0b11 then 2 else 3

/-- The delta decoded for `m = (pos(q) - pos(p)) mod 4` (R81): also what `j` single steps between two samples are
decoded as, for `m = j mod 4` (R129). -/
def deltaOfSteps (m : Int) : Delta :=
  if m % 4 = 1 then .plus else if m % 4 = 3 then .minus else .zero

/-- The pair at number `j` along the forward cycle, for any integer `j`: the inverse of `pos` (R81). -/
def pairAt (j : Int) : Pair :=
  if j % 4 = 0 then 0b00 else if j % 4 = 1 then 0b10 else if j % 4 = 2 then 0b11 else 0b01

/-- The table packed two bits per entry, entry `i` in bits `2i+1:2i` (R61). -/
def lutPacked : BitVec 32 := 0x3443C11C

end Sys2Proof.Machine
end

