-- ==== Sys2Proof/Machine/Flags.lean ====
section
/-! DEFINITION. QDEC has no flags, condition codes, status bits or sticky bits (R21), and no operation writes one.
The nearest things are the two gate signals of the table (R82), which only CHDEC sees: count enable (DELTA bit 0)
and sign (DELTA bit 1). -/

namespace Sys2Proof.Machine

/-- `moved = p1 ^ q1 ^ p0 ^ q0`: exactly one line changed (R82). -/
def moved (p q : Pair) : Bool := (p.getLsbD 1 ^^ q.getLsbD 1) ^^ (p.getLsbD 0 ^^ q.getLsbD 0)

/-- `up = p0 ^ q1` (R82). -/
def up (p q : Pair) : Bool := p.getLsbD 0 ^^ q.getLsbD 1

/-- The gate-level form of the table (R82). -/
def lutGate (p q : Pair) : Delta :=
  if moved p q then (if up p q then .plus else .minus) else .zero

end Sys2Proof.Machine
end

