-- ==== Sys2Proof/Machine/Ops.lean ====
section
/-! DEFINITION. The shared operations: the sequencer's next position (R97), the register writes, `ReadGroup`, CHDEC
(R85) and its effects (R86 to R88), GRPDEC (R92), the micro-steps (R100), the whole operations SEED.g (R98) and
SAMPLE.g (R99), the READER's snapshot (R107) and RESET (R124).

TAKING AN EXCEPTION: there is none to take. The set of exception causes is empty (R112), there is no interrupt
(R114), no trap entry and no return (R116, R117). RESET is the only event that breaks the sequencer's order. -/

namespace Sys2Proof.Machine

/-- What executing an operation answers. -/
abbrev Result := Host.Outcome State Fault Refusal

/-- Go on with the next state, or stop where the first part stopped. -/
def andThen (r : Result) (k : State → Result) : Result :=
  match r with
  | .next s => k s
  | .fault e => .fault e
  | .refused e => .refused e

/-- `next(g)`: A, B, C, D, A (R97). -/
def nextGroup : Group → Group
  | .a => .b
  | .b => .c
  | .c => .d
  | .d => .a

/-- The position after a micro-step: it depends on the position before it and on nothing else (R97). -/
def nextSeq : Seq → Seq
  | .seed .a => .seed .b
  | .seed .b => .seed .c
  | .seed .c => .seed .d
  | .seed .d => .run .a .rd
  | .run g .rd => .run g (.ch 0)
  | .run g (.ch 0) => .run g (.ch 1)
  | .run g (.ch 1) => .run g (.ch 2)
  | .run g (.ch 2) => .run g (.ch 3)
  | .run g (.ch 3) => .run g .latch
  | .run g .latch => .run (nextGroup g) .rd

/-! Register writes. -/

/-- Every micro-step of CORE advances `SEQ` (R18, R97). -/
def State.advance (s : State) : State := { s with seq := nextSeq s.seq }

/-- `CTR[g,c] <- w` (R35: all 32 bits in one micro-step). -/
def State.setCounter (s : State) (g : Group) (c : Chan) (w : CtrWord) : State :=
  { s with ctr := s.ctr.set (flat g c).val w (flat g c).isLt }

/-- `PREV[g] <- v` (R17). -/
def State.setPrev (s : State) (g : Group) (v : Raw) : State :=
  { s with prev := s.prev.set (Group.id g).val (some v) (Group.id g).isLt }

/-- `NEW <- v` (R19). -/
def State.setNew (s : State) (v : Raw) : State := { s with new := some v }

/-- `NEW` holds no value outside a SAMPLE (R19): LATCH ends it (log entry 3). -/
def State.dropNew (s : State) : State := { s with new := none }

/-- One `ReadGroup` call has been answered: ENV's queue moves on. Nothing of QDEC changes (R29, R36). -/
def State.answered (s : State) : State := { s with answers := s.answers.tail, draws := s.draws + 1 }

/-! The Channel Decoder. -/

/-- INC: `CTR[g,c] <- (CTR[g,c] + 1) mod 2^32` (R86). -/
def effectInc (g : Group) (c : Chan) (s : State) : State := s.setCounter g c (s.counter g c + 1)

/-- DEC: `CTR[g,c] <- (CTR[g,c] + 0xFFFFFFFF) mod 2^32` (R87). -/
def effectDec (g : Group) (c : Chan) (s : State) : State := s.setCounter g c (s.counter g c + 0xFFFFFFFF)

/-- HOLD: `CTR[g,c]` is neither read nor written (R88). -/
def effectHold (_ : Group) (_ : Chan) (s : State) : State := s

/-- The word of a counter after a delta that is not 0 is added (R85, R89: the carry out is dropped). -/
def addDelta (w : CtrWord) (d : Delta) : CtrWord := w + deltaWord d

/-- CHDEC(g, c, p, q) (R85): look the code up, add the delta if it is not 0. -/
def chdec (g : Group) (c : Chan) (p q : Pair) (s : State) : State :=
  { s with ctr :=
      match lut (tcOf p q) with
      | .zero => s.ctr
      | d => s.ctr.set (flat g c).val (addDelta (s.counter g c) d) (flat g c).isLt }

/-- GRPDEC(g, P8, N8) (R92): CHDEC of channels 0, 1, 2, 3 in that order. -/
def grpdec (g : Group) (p8 n8 : Raw) (s : State) : State :=
  ([0, 1, 2, 3] : List Chan).foldl (fun t c => chdec g c (pairOf p8 c) (pairOf n8 c) t) s

/-- The operands of a channel decode (R56): the pairs of channel `c` in `PREV[g]` and in `NEW`. A register that holds
no value must not be read: "a model makes such a read a model fault, not a zero" (R24; U1: "`fault` if read"). -/
def withPairs (g : Group) (c : Chan) (s : State) (k : Pair → Pair → Result) : Result :=
  match s.prevOf g with
  | none => .fault (.prevNoValue g)
  | some p8 =>
    match s.new with
    | none => .fault .newNoValue
    | some n8 => k (pairOf p8 c) (pairOf n8 c)

/-- The channel `SEQ` selects, with its operands; at a position that is no CHc micro-step no channel is being
decoded (R59, R85). -/
def atChannel (s : State) (k : Group → Chan → Pair → Pair → Result) : Result :=
  match s.seq with
  | .run g (.ch c) => withPairs g c s (k g c)
  | .run _ .rd => .refused .notSelected
  | .run _ .latch => .refused .notSelected
  | .seed _ => .refused .notSelected

/-- The channel decode in progress seen as ONE transition code (R57, R63 to R78): it is selected where the assembled
code is `tc`; then the row's counter effect, and `SEQ` advances (R90). -/
def transition (tc : TransCode) (effect : Group → Chan → State → State) (s : State) : Result :=
  atChannel s fun g c p q => if tcOf p q = tc then .next (effect g c s).advance else .refused .notSelected

/-- The channel decode in progress seen as ONE counter effect (R86 to R88): it is selected where the table gives the
row's delta. -/
def countEffect (d : Delta) (effect : Group → Chan → State → State) (s : State) : Result :=
  atChannel s fun g c p q => if lut (tcOf p q) = d then .next (effect g c s).advance else .refused .notSelected

/-! The Sampling Loop. -/

/-- SEED.g (R98): `PREV[g] <- ReadGroup(g)`; no decode, no counter. -/
def seedStep (g : Group) (s : State) : Result :=
  if s.seq = .seed g then .next ((s.answered.setPrev g s.readGroup).advance) else .refused .notSelected

/-- RD of SAMPLE.g (R100): `NEW <- ReadGroup(g)`. -/
def readStep (g : Group) (s : State) : Result :=
  if s.seq = .run g .rd then .next ((s.answered.setNew s.readGroup).advance) else .refused .notSelected

/-- CHc of SAMPLE.g (R100): CHDEC(g, c, PREV[g] pair c, NEW pair c). -/
def channelStep (g : Group) (c : Chan) (s : State) : Result :=
  if s.seq = .run g (.ch c) then withPairs g c s fun p q => .next (chdec g c p q s).advance
  else .refused .notSelected

/-- LATCH of SAMPLE.g (R100): `PREV[g] <- NEW`; the SAMPLE is over, so `NEW` holds no value (R19, log entry 3). A
`NEW` that holds none must not be read: the model fault R24 and U1 prescribe. -/
def latchStep (g : Group) (s : State) : Result :=
  if s.seq = .run g .latch then
    match s.new with
    | none => .fault .newNoValue
    | some n8 => .next ((s.setPrev g n8).dropNew.advance)
  else .refused .notSelected

/-- The micro-step `u` of SAMPLE.g. -/
def ustep (g : Group) : UStep → State → Result
  | .rd => readStep g
  | .ch c => channelStep g c
  | .latch => latchStep g

/-- Several micro-steps of SAMPLE.g, one after another. -/
def runUsteps (g : Group) : List UStep → State → Result
  | [], s => .next s
  | u :: us, s => andThen (ustep g u s) (runUsteps g us)

/-- The micro-steps of a SAMPLE from `u` to its end (R100). -/
def ustepsFrom : UStep → List UStep
  | .rd => [.rd, .ch 0, .ch 1, .ch 2, .ch 3, .latch]
  | .ch 0 => [.ch 0, .ch 1, .ch 2, .ch 3, .latch]
  | .ch 1 => [.ch 1, .ch 2, .ch 3, .latch]
  | .ch 2 => [.ch 2, .ch 3, .latch]
  | .ch 3 => [.ch 3, .latch]
  | .latch => [.latch]

/-- SAMPLE.g as one transition, from (RUN, g, RD) to (RUN, next(g), RD) (R99). `NEW` is dead afterwards. A
`PREV[g]` that holds no value must not be read: the model fault R24 and U1 prescribe. -/
def sampleWhole (g : Group) (s : State) : Result :=
  if s.seq = .run g .rd then
    match s.prevOf g with
    | none => .fault (.prevNoValue g)
    | some p8 =>
      .next { (((grpdec g p8 s.readGroup s.answered).setPrev g s.readGroup).dropNew) with seq := .run (nextGroup g) .rd }
  else .refused .notSelected

/-- The operation SAMPLE.g named by the word `1gguuu`: with `uuu` = RD the whole operation (R99); a SAMPLE already in
progress at micro-step `u` is carried on to its end (log entry 10). -/
def sampleFrom (g : Group) (u : UStep) (s : State) : Result :=
  match u with
  | .rd => sampleWhole g s
  | .ch c => runUsteps g (ustepsFrom (.ch c)) s
  | .latch => runUsteps g (ustepsFrom .latch) s

/-! The other agents. -/

/-- RDCTR (R107): READER receives all 32 bits of `CTR[4g+c]` as they stand; QDEC is unchanged. -/
def snapshot (g : Group) (c : Chan) (s : State) : Result :=
  .next { s with reads := ⟨g, c, s.memReadCtrs (flat g c)⟩ :: s.reads }

/-- RESET (R124): counters 0, `PREV` and `NEW` without a value, `SEQ` at (SEED, A, RD). What belongs to ENV, READER and
RESETSRC is no state of QDEC and stays (log entry 13). -/
def resetQdec (s : State) : Result :=
  .next { s with
    ctr := Vector.replicate 16 0
    prev := Vector.replicate 4 none
    new := none
    seq := .seed .a }

end Sys2Proof.Machine
end

