-- ==== Sys2Proof/Machine/CounterEffects.lean ====
section
/-! DEFINITION. The three effects of CHDEC, the rows of format DELTA (R86 to R88). -/

namespace Sys2Proof.Machine

/-- HOLD, the effect where the table gives 0 (R88). -/
def execHold (s : State) : Result := countEffect .zero effectHold s

/-- INC, the effect where the table gives +1 (R86). -/
def execInc (s : State) : Result := countEffect .plus effectInc s

/-- DEC, the effect where the table gives -1 (R87). -/
def execDec (s : State) : Result := countEffect .minus effectDec s

end Sys2Proof.Machine
end

