-- ==== Sys2Proof/Machine/MicroSteps.lean ====
section
/-! DEFINITION. The micro-steps of SAMPLE.g, the rows of format SEQ_USTEP (R100). -/

namespace Sys2Proof.Machine

def execUstepRd (g : Group) (s : State) : Result := readStep g s

def execUstepCh0 (g : Group) (s : State) : Result := channelStep g 0 s

def execUstepCh1 (g : Group) (s : State) : Result := channelStep g 1 s

def execUstepCh2 (g : Group) (s : State) : Result := channelStep g 2 s

def execUstepCh3 (g : Group) (s : State) : Result := channelStep g 3 s

def execUstepLatch (g : Group) (s : State) : Result := latchStep g s

end Sys2Proof.Machine
end

