-- ==== Sys2Proof/Machine/SequencerOps.lean ====
section
/-! DEFINITION. The operations of the Sampling Loop, the rows of format SEQ_OP: SEED.g (R98) and SAMPLE.g (R99). -/

namespace Sys2Proof.Machine

def execSeedA (s : State) : Result := seedStep .a s

def execSeedB (s : State) : Result := seedStep .b s

def execSeedC (s : State) : Result := seedStep .c s

def execSeedD (s : State) : Result := seedStep .d s

def execSampleA (u : UStep) (s : State) : Result := sampleFrom .a u s

def execSampleB (u : UStep) (s : State) : Result := sampleFrom .b u s

def execSampleC (u : UStep) (s : State) : Result := sampleFrom .c u s

def execSampleD (u : UStep) (s : State) : Result := sampleFrom .d u s

end Sys2Proof.Machine
end

