-- ==== Sys2Proof/Machine/SystemOps.lean ====
section
/-! DEFINITION. What the agents other than CORE do (44_reader_and_system.md): the READER's RDCTR (R107) and the reset
source's RESET (R110, R124). -/

namespace Sys2Proof.Machine

/-- RDCTR a, at any micro-step boundary, any of the 16 addresses (R107, R136). -/
def execRdctr (g : Group) (c : Chan) (s : State) : Result := snapshot g c s

/-- RESET, at any micro-step boundary (R110, R124, R125). -/
def execReset (s : State) : Result := resetQdec s

end Sys2Proof.Machine
end

