-- ==== Sys2Proof/Machine/TransitionCodes.lean ====
section
/-! DEFINITION. The sixteen transition codes (40_decode_table.md section 2): each row's code and counter effect as
the row gives them, not through the table. -/

namespace Sys2Proof.Machine

/-- STAY.00, 00→00: HOLD (R63). -/
def execStay00 (s : State) : Result := transition 0b0000 effectHold s

/-- BWD.00_01, 00→01: DEC (R64). -/
def execBwd00_01 (s : State) : Result := transition 0b0001 effectDec s

/-- FWD.00_10, 00→10: INC (R65). -/
def execFwd00_10 (s : State) : Result := transition 0b0010 effectInc s

/-- AMB.00_11, 00→11: HOLD (R66). -/
def execAmb00_11 (s : State) : Result := transition 0b0011 effectHold s

/-- FWD.01_00, 01→00: INC (R67). -/
def execFwd01_00 (s : State) : Result := transition 0b0100 effectInc s

/-- STAY.01, 01→01: HOLD (R68). -/
def execStay01 (s : State) : Result := transition 0b0101 effectHold s

/-- AMB.01_10, 01→10: HOLD (R69). -/
def execAmb01_10 (s : State) : Result := transition 0b0110 effectHold s

/-- BWD.01_11, 01→11: DEC (R70). -/
def execBwd01_11 (s : State) : Result := transition 0b0111 effectDec s

/-- BWD.10_00, 10→00: DEC (R71). -/
def execBwd10_00 (s : State) : Result := transition 0b1000 effectDec s

/-- AMB.10_01, 10→01: HOLD (R72). -/
def execAmb10_01 (s : State) : Result := transition 0b1001 effectHold s

/-- STAY.10, 10→10: HOLD (R73). -/
def execStay10 (s : State) : Result := transition 0b1010 effectHold s

/-- FWD.10_11, 10→11: INC (R74). -/
def execFwd10_11 (s : State) : Result := transition 0b1011 effectInc s

/-- AMB.11_00, 11→00: HOLD (R75). -/
def execAmb11_00 (s : State) : Result := transition 0b1100 effectHold s

/-- FWD.11_01, 11→01: INC (R76). -/
def execFwd11_01 (s : State) : Result := transition 0b1101 effectInc s

/-- BWD.11_10, 11→10: DEC (R77). -/
def execBwd11_10 (s : State) : Result := transition 0b1110 effectDec s

/-- STAY.11, 11→11: HOLD (R78). -/
def execStay11 (s : State) : Result := transition 0b1111 effectHold s

end Sys2Proof.Machine
end

