-- ==== Sys2Proof/Machine/Dispatch.lean ====
section
/-! DEFINITION. `exec`: one arm per constructor of `Instr`, each one direct call of that operation's meaning. -/

namespace Sys2Proof.Machine

def exec (i : Instr) (s : State) : Host.Outcome State Fault Refusal :=
  match i with
  | .stay00 => Sys2Proof.Machine.execStay00 s
  | .bwd00_01 => Sys2Proof.Machine.execBwd00_01 s
  | .fwd00_10 => Sys2Proof.Machine.execFwd00_10 s
  | .amb00_11 => Sys2Proof.Machine.execAmb00_11 s
  | .fwd01_00 => Sys2Proof.Machine.execFwd01_00 s
  | .stay01 => Sys2Proof.Machine.execStay01 s
  | .amb01_10 => Sys2Proof.Machine.execAmb01_10 s
  | .bwd01_11 => Sys2Proof.Machine.execBwd01_11 s
  | .bwd10_00 => Sys2Proof.Machine.execBwd10_00 s
  | .amb10_01 => Sys2Proof.Machine.execAmb10_01 s
  | .stay10 => Sys2Proof.Machine.execStay10 s
  | .fwd10_11 => Sys2Proof.Machine.execFwd10_11 s
  | .amb11_00 => Sys2Proof.Machine.execAmb11_00 s
  | .fwd11_01 => Sys2Proof.Machine.execFwd11_01 s
  | .bwd11_10 => Sys2Proof.Machine.execBwd11_10 s
  | .stay11 => Sys2Proof.Machine.execStay11 s
  | .hold => Sys2Proof.Machine.execHold s
  | .inc => Sys2Proof.Machine.execInc s
  | .dec => Sys2Proof.Machine.execDec s
  | .seedA => Sys2Proof.Machine.execSeedA s
  | .seedB => Sys2Proof.Machine.execSeedB s
  | .seedC => Sys2Proof.Machine.execSeedC s
  | .seedD => Sys2Proof.Machine.execSeedD s
  | .sampleA u => Sys2Proof.Machine.execSampleA u s
  | .sampleB u => Sys2Proof.Machine.execSampleB u s
  | .sampleC u => Sys2Proof.Machine.execSampleC u s
  | .sampleD u => Sys2Proof.Machine.execSampleD u s
  | .ustepRd g => Sys2Proof.Machine.execUstepRd g s
  | .ustepCh0 g => Sys2Proof.Machine.execUstepCh0 g s
  | .ustepCh1 g => Sys2Proof.Machine.execUstepCh1 g s
  | .ustepCh2 g => Sys2Proof.Machine.execUstepCh2 g s
  | .ustepCh3 g => Sys2Proof.Machine.execUstepCh3 g s
  | .ustepLatch g => Sys2Proof.Machine.execUstepLatch g s
  | .rdctr g c => Sys2Proof.Machine.execRdctr g c s
  | .reset => Sys2Proof.Machine.execReset s

end Sys2Proof.Machine
end

