-- ==== Sys2Proof/Machine/Fetch.lean ====
section
/-! DEFINITION. Which operation comes next. QDEC fetches no instructions (R46). An event of an outside agent, or a
line of a trace (R59), is taken from `pending`; where nothing is pending CORE performs the micro-step `SEQ` selects
(R8, R18). And how a given word is brought to be the next one (log entry 14). -/

namespace Sys2Proof.Machine

/-- The word that names the next event, and the state in which it takes place. -/
def State.fetch (s : State) : Request × State :=
  match s.pending with
  | r :: rest => (r, { s with pending := rest })
  | [] => (s.seq.request, s)

/-- Channel 0 of group A is about to be decoded, with the code `tc`. -/
def pointAtCode (tc : TransCode) (s : State) : State :=
  { s with
    seq := .run .a (.ch 0)
    prev := s.prev.set 0 (some ((s.prevOf .a).getD 0 &&& 0xFC ||| (tcPrev tc).zeroExtend 8))
    new := some (s.new.getD 0 &&& 0xFC ||| (tcCur tc).zeroExtend 8) }

/-- SAMPLE.g stands at micro-step `u`: its baseline holds a value, and after RD so does `NEW`. -/
def pointAtSample (g : Group) (u : UStep) (s : State) : State :=
  { s with
    seq := .run g u
    prev := s.prev.set (Group.id g).val (some ((s.prevOf g).getD 0)) (Group.id g).isLt
    new := match u with
      | .rd => s.new
      | .ch _ => some (s.new.getD 0)
      | .latch => some (s.new.getD 0) }

/-- The state in which operation `i` is the one the machine selects. RDCTR and RESET need nothing: they may fall on any
boundary. -/
def pointAt (i : Instr) (s : State) : State :=
  match i with
  | .stay00 => pointAtCode 0b0000 s
  | .bwd00_01 => pointAtCode 0b0001 s
  | .fwd00_10 => pointAtCode 0b0010 s
  | .amb00_11 => pointAtCode 0b0011 s
  | .fwd01_00 => pointAtCode 0b0100 s
  | .stay01 => pointAtCode 0b0101 s
  | .amb01_10 => pointAtCode 0b0110 s
  | .bwd01_11 => pointAtCode 0b0111 s
  | .bwd10_00 => pointAtCode 0b1000 s
  | .amb10_01 => pointAtCode 0b1001 s
  | .stay10 => pointAtCode 0b1010 s
  | .fwd10_11 => pointAtCode 0b1011 s
  | .amb11_00 => pointAtCode 0b1100 s
  | .fwd11_01 => pointAtCode 0b1101 s
  | .bwd11_10 => pointAtCode 0b1110 s
  | .stay11 => pointAtCode 0b1111 s
  | .hold => pointAtCode 0b0000 s
  | .inc => pointAtCode 0b0010 s
  | .dec => pointAtCode 0b0001 s
  | .seedA => { s with seq := .seed .a }
  | .seedB => { s with seq := .seed .b }
  | .seedC => { s with seq := .seed .c }
  | .seedD => { s with seq := .seed .d }
  | .sampleA u => pointAtSample .a u s
  | .sampleB u => pointAtSample .b u s
  | .sampleC u => pointAtSample .c u s
  | .sampleD u => pointAtSample .d u s
  | .ustepRd g => pointAtSample g .rd s
  | .ustepCh0 g => pointAtSample g (.ch 0) s
  | .ustepCh1 g => pointAtSample g (.ch 1) s
  | .ustepCh2 g => pointAtSample g (.ch 2) s
  | .ustepCh3 g => pointAtSample g (.ch 3) s
  | .ustepLatch g => pointAtSample g .latch s
  | .rdctr _ _ => s
  | .reset => s

/-- The word `r` comes next, in a state that selects the operation it names; a word that names none comes next in `s`. -/
def placeRequest (r : Request) (s : State) : State :=
  match decode r with
  | .ok i => { pointAt i s with pending := r :: s.pending }
  | .error _ => { s with pending := r :: s.pending }

/-- A bare table word comes next; one that no format reads comes next as a word that `step` refuses. -/
def placeTableWord (s : State) (nbits w : Nat) : State :=
  match tableRequest nbits w with
  | some r => placeRequest r s
  | none => placeRequest ⟨.seqOp, 0xFF⟩ s

end Sys2Proof.Machine
end

