-- ==== Sys2Proof/WellFormed.lean ====
section
/-! DEFINITION. Well-formedness. Every term of `Instr` is well formed: its operands are enumerations, and all 16
transition codes, 4 group ids and 16 counter addresses are legal (R58). What can be ill formed is a WORD (a
pattern of the spec's own encodings that never occurs, U14) and a script LINE (R59, vectors N5 and N6). That a
line names the operation `SEQ` selects (N1 to N4) depends on the position: `lineNext` of Machine/Script.lean. -/

namespace Sys2Proof

/-- No operand of an operation can be out of range (R58: no reserved or illegal encoding anywhere). -/
def Instr.wf (_ : Instr) : Bool := true

/-- The USTEP field, bits 2:0, of a sequencer word (R55). -/
def Request.ustepField (r : Request) : Nat := r.bits.toNat % 8

/-- The PHASE bit, bit 5, of a sequencer word (R55). -/
def Request.phaseField (r : Request) : Nat := r.bits.toNat / 32

/-- The word lies within its format's width, and is a pattern the format uses: DELTA `10` is never produced (R50);
USTEP 6 and 7 never occur, and with PHASE = 0 only USTEP = 0 does (R55); a micro-step word has PHASE = 1; the reset
input asserted is `1` (R110). -/
def Request.wf (r : Request) : Bool :=
  match r.fmt with
  | .tc => r.bits.toNat < 16
  | .delta => r.bits.toNat < 4 && r.bits.toNat != 2
  | .seqOp => r.bits.toNat < 64 && (if r.phaseField = 0 then r.ustepField == 0 else r.ustepField < 6)
  | .seqUstep => r.bits.toNat < 64 && r.phaseField == 1 && r.ustepField < 6
  | .ctrAddr => r.bits.toNat < 16
  | .rst => r.bits.toNat == 1

/-- A group letter (N5: "no such group"). -/
def isGroupLetter (g : Char) : Bool := g == 'A' || g == 'B' || g == 'C' || g == 'D'

/-- A raw sample has 8 bits (N6). -/
def isRawLiteral (v : Nat) : Bool := v < 256

/-- A channel index is 0..3 (N5: "no such channel"). -/
def isChannelLiteral (c : Nat) : Bool := c < 4

/-- A counter literal is a 32-bit word or a signed decimal (R59). -/
def isCounterLiteral (w : Int) : Bool := decide (-2147483648 ≤ w) && decide (w < 4294967296)

def InLine.wf : InLine → Bool
  | .ustep => true
  | .rdctr g c w => isGroupLetter g && isChannelLiteral c && isCounterLiteral w
  | .reset => true

/-- A block performs all six micro-steps of its SAMPLE, no more and no fewer, unless a RESET abandons it; after the
RESET it performs none (R59, R100, R125). `k` micro-steps are still to come. -/
def blockWf : Nat → List InLine → Bool
  | k, [] => k == 0
  | 0, .ustep :: _ => false
  | k + 1, .ustep :: rest => blockWf k rest
  | _, .reset :: rest => blockWf 0 rest
  | k, .rdctr _ _ _ :: rest => blockWf k rest

def Line.wf : Line → Bool
  | .reset => true
  | .seed g v => isGroupLetter g && isRawLiteral v
  | .sample g v => isGroupLetter g && isRawLiteral v
  | .sampleSteps g v body => isGroupLetter g && isRawLiteral v && body.all InLine.wf && blockWf 6 body
  | .rdctr g c w => isGroupLetter g && isChannelLiteral c && isCounterLiteral w

end Sys2Proof
end

