-- ==== Sys2Proof/Machine/Script.lean ====
section
/-! DEFINITION. The script notation (R59, R60): a script that is well formed where it starts, as the events and the
`ReadGroup` answers it records, which come next in the state that loads it. -/

namespace Sys2Proof.Machine

/-- The group of a letter (R54); only a letter that `isGroupLetter` accepts reaches it. -/
def groupOfLetter (g : Char) : Group :=
  if g = 'A' then .a else if g = 'B' then .b else if g = 'C' then .c else .d

/-- The channel of a numeral (R59); only one that `isChannelLiteral` accepts reaches it. -/
def chanOfLiteral (c : Nat) : Chan := ⟨c % 4, Nat.mod_lt _ (by decide)⟩

def rdctrRequest (g : Char) (c : Nat) : Request := encode (.rdctr (groupOfLetter g) (chanOfLiteral c))

/-! Well-formedness at a position. -/

/-- The position after a line, where the line names the operation the position selects (R59, the column "well-formed
when"): SEED at its seed position, SAMPLE and the block form at RD of their group, RESET and RDCTR anywhere. A block
ends at the next group, or at (SEED, A, RD) where a RESET abandons it. -/
def lineNext (q : Seq) : Line → Option Seq
  | .reset => some (.seed .a)
  | .seed g _ => if q = .seed (groupOfLetter g) then some (nextSeq q) else none
  | .sample g _ => if q = .run (groupOfLetter g) .rd then some (.run (nextGroup (groupOfLetter g)) .rd) else none
  | .sampleSteps g _ body =>
    if q = .run (groupOfLetter g) .rd then
      some (if body.contains .reset then .seed .a else .run (nextGroup (groupOfLetter g)) .rd)
    else none
  | .rdctr _ _ _ => some q

/-- The position after a script that starts at `q`; none where one of its lines is ill formed there. -/
def scriptEnd : Seq → List Line → Option Seq
  | q, [] => some q
  | q, l :: rest =>
    if l.wf then
      match lineNext q l with
      | some q' => scriptEnd q' rest
      | none => none
    else none

/-! Events and answers. -/

/-- The events of a `SAMPLE g, v { … }` block; `us` are the micro-steps still to come. A RESET abandons them. -/
def blockRequests (g : Group) : List UStep → List InLine → List Request
  | _, [] => []
  | us, .rdctr h c _ :: rest => rdctrRequest h c :: blockRequests g us rest
  | _, .reset :: rest => encode .reset :: blockRequests g [] rest
  | u :: us, .ustep :: rest => (Seq.run g u).request :: blockRequests g us rest
  | [], .ustep :: rest => blockRequests g [] rest

/-- The events of a line (R59). -/
def lineRequests : Line → List Request
  | .reset => [encode .reset]
  | .seed g _ => [encode (seedOf (groupOfLetter g))]
  | .sample g _ => [encode (sampleOf (groupOfLetter g) .rd)]
  | .sampleSteps g _ body => blockRequests (groupOfLetter g) (ustepsFrom .rd) body
  | .rdctr g c _ => [rdctrRequest g c]

/-- The `ReadGroup` answers of a line: one for a SEED or a SAMPLE, none where a block never performs its RD. -/
def lineAnswers : Line → List Raw
  | .reset => []
  | .seed _ v => [BitVec.ofNat 8 v]
  | .sample _ v => [BitVec.ofNat 8 v]
  | .sampleSteps _ v body => if body.contains .ustep then [BitVec.ofNat 8 v] else []
  | .rdctr _ _ _ => []

/-- The snapshot a RDCTR line says READER gets. -/
def snapshotOf (g : Char) (c : Nat) (w : Int) : Snapshot := ⟨groupOfLetter g, chanOfLiteral c, word w⟩

/-- The snapshots a line says READER gets, in order (`RDCTR g, c = w`). -/
def lineReads : Line → List Snapshot
  | .reset => []
  | .seed _ _ => []
  | .sample _ _ => []
  | .sampleSteps _ _ body =>
    body.filterMap fun l =>
      match l with
      | .rdctr g c w => some (snapshotOf g c w)
      | .ustep => none
      | .reset => none
  | .rdctr g c w => [snapshotOf g c w]

/-- Load a script: what it records happens next, before anything the state has queued, so each `ReadGroup(g)` of its
lines returns the line's own `v`. A script with a line that is ill formed, or that names an operation the position does
not select, is not loaded (N1 to N6). -/
def State.load (s : State) (script : List Line) : Option State :=
  match scriptEnd s.seq script with
  | some _ =>
    some { s with
      pending := script.flatMap lineRequests ++ s.pending
      answers := script.flatMap lineAnswers ++ s.answers }
  | none => none

/-- The RDCTR lines of a script all returned what they say, given the state it started in and the one it ended in. -/
def readsAgree (before after : State) (script : List Line) : Bool :=
  after.reads == (script.flatMap lineReads).reverse ++ before.reads

/-! The pseudo-operations (R60). -/

/-- `BOOT vA, vB, vC, vD`. -/
def boot (va vb vc vd : Nat) : List Line :=
  [.reset, .seed 'A' va, .seed 'B' vb, .seed 'C' vc, .seed 'D' vd]

/-- `ITER vA, vB, vC, vD`. -/
def iter (va vb vc vd : Nat) : List Line :=
  [.sample 'A' va, .sample 'B' vb, .sample 'C' vc, .sample 'D' vd]

/-- `REPEAT n { lines }`. -/
def repeatLines : Nat → List Line → List Line
  | 0, _ => []
  | n + 1, lines => lines ++ repeatLines n lines

/-- `HOLDITER`: `ITER` with every value equal to the present `PREV[g]`; no such line where a `PREV[g]` holds no value. -/
def holdIter (s : State) : Option (List Line) :=
  match s.prevOf .a, s.prevOf .b, s.prevOf .c, s.prevOf .d with
  | some a, some b, some c, some d => some (iter a.toNat b.toNat c.toNat d.toNat)
  | _, _, _, _ => none

end Sys2Proof.Machine
end

