-- ==== Sys2Proof/Safety.lean ====
section
/-! DEFINITION. The terms claims about QDEC are stated in: the legal states (R18, R19, R23, R24), CORE's run (R8,
R102), the samples of a run and the sums of their deltas (R104), the named premises (R137), and what a torn word
is (R42). -/

namespace Sys2Proof.Machine

/-- The position is in phase SEED (R18). -/
def inSeedPhase : Seq → Bool
  | .seed _ => true
  | .run _ _ => false

/-- At this position `PREV[h]` holds a value: in phase SEED for the groups already seeded, in phase RUN for all
(R24, R97). -/
def hasBaseline : Seq → Group → Bool
  | .seed g, h => decide (Group.id h < Group.id g)
  | .run _ _, _ => true

/-- At this position `NEW` holds a value: inside a SAMPLE, that is in phase RUN with USTEP ≠ RD (R19). -/
def insideSample : Seq → Bool
  | .seed _ => false
  | .run _ u => decide (u ≠ .rd)

/-- The states the spec describes: exactly the registers hold a value that the position says, and no counter has
moved before the seed phase is over (R19, R23, R24, R98). -/
def Legal (s : State) : Prop :=
  (∀ h : Group, (s.prevOf h).isSome = hasBaseline s.seq h) ∧
  s.new.isSome = insideSample s.seq ∧
  (inSeedPhase s.seq = true → ∀ k : Fin 16, s.ctr[k] = 0)

/-- An iteration boundary: `SEQ = (RUN, A, RD)` (R9). -/
def AtIterationBoundary (s : State) : Prop := s.seq = .run .a .rd

/-- `n` steps of the machine. -/
def steps (n : Nat) (s : State) : Result := Host.Core.run Sys2Proof.core n s

/-- What ENV presents: the byte of group `g` at its `i`-th read after a reset, the seed read being number 0 (R30). -/
abbrev Samples := Nat → Group → Raw

/-- The four answers of one round of reads, A, B, C, D (R97). -/
def roundAnswers (x : Group → Raw) : List Raw := [x .a, x .b, x .c, x .d]

/-- The answers of the seed reads and of `n` iterations, in the order of the `ReadGroup` calls (R30, R39). -/
def runAnswers (x : Samples) : Nat → List Raw
  | 0 => roundAnswers (x 0)
  | n + 1 => runAnswers x n ++ roundAnswers (x (n + 1))

/-- The delta decoded for channel (g,c) between two raw samples of the group (R56, R61). -/
def channelDelta (c : Chan) (p8 n8 : Raw) : Delta := lut (tcOf (pairOf p8 c) (pairOf n8 c))

/-- The sum of the deltas of channel (g,c) over `n` iterations (R26, R104). -/
def deltaSum (x : Samples) (g : Group) (c : Chan) : Nat → Int
  | 0 => 0
  | n + 1 => deltaSum x g c n + deltaVal (channelDelta c (x n g) (x (n + 1) g))

/-- The range of a counter (R14). -/
def InRange (i : Int) : Prop := -2147483648 ≤ i ∧ i < 2147483648

/-! The named premises (R137, log entry 24). QDEC checks none of them. -/

/-- P_RESET: `s` is where a run starts, the state some RESET leaves; the state before it is not spoken of. -/
def PReset (s : State) : Prop := ∃ before : State, exec .reset before = .next s

/-- P_BOOTED: the four SEED operations after the last RESET are done. -/
def PBooted (s : State) : Prop := inSeedPhase s.seq = false ∧ ∀ g : Group, (s.prevOf g).isSome = true

/-- P_CONTRACT: every value READER goes by came whole from one RDCTR (R108). -/
def PContract (s : State) (values : List Snapshot) : Prop := ∀ v ∈ values, v ∈ s.reads

/-- P_RANGE: fewer than 2^31 net steps in either direction. -/
def PRange (net : Int) : Prop := -2147483648 < net ∧ net < 2147483648

/-- P_RATE, for the encoder of channel (g,c) whose true position at the `i`-th sample is `y i`: at most one single step
between two consecutive samples, and every sample after the seed read shows the encoder (no line glitched). -/
def PRate (x : Samples) (y : Nat → Int) (g : Group) (c : Chan) (n : Nat) : Prop :=
  ∀ i, i < n → (y (i + 1) - y i = -1 ∨ y (i + 1) - y i = 0 ∨ y (i + 1) - y i = 1) ∧
    pairOf (x (i + 1) g) c = pairAt (y (i + 1))

/-- P_SETUP: the seed read shows the encoder's real position (R127). -/
def PSetup (x : Samples) (y : Nat → Int) (g : Group) (c : Chan) : Prop := pairOf (x 0 g) c = pairAt (y 0)

/-- P_FAIR: CORE's next micro-step is not put off for ever: the events pending ahead of it come to an end. -/
def PFair (s : State) : Prop := ∃ n t, steps n s = .next t ∧ t.pending = []

/-! What a READER can see. -/

/-- How many micro-steps of CORE a pending word stands for: none where it is a snapshot, six for a whole SAMPLE. -/
def coreSteps (r : Request) : Nat :=
  match decode r with
  | .ok (.rdctr _ _) => 0
  | .ok .reset => 0
  | .ok (.sampleA u) => (ustepsFrom u).length
  | .ok (.sampleB u) => (ustepsFrom u).length
  | .ok (.sampleC u) => (ustepsFrom u).length
  | .ok (.sampleD u) => (ustepsFrom u).length
  | .ok _ => 1
  | .error _ => 0

/-- How many micro-steps of CORE the next `n` steps are: those of the pending words, then one a step. -/
def coreStepsOf (n : Nat) (s : State) : Nat :=
  ((s.pending.take n).map coreSteps).sum + (n - s.pending.length)

/-- `w` is made of pieces of `gran` bits, each taken from one of the words `vs`: what a read that breaks the contract can
see (R42). The model offers no such read (log entry 12). -/
def GranuleMix (gran : Nat) (vs : List CtrWord) (w : CtrWord) : Prop :=
  ∀ i : Fin 32, ∃ v ∈ vs, ∀ j : Fin 32, j.val / gran = i.val / gran → w.getLsbD j.val = v.getLsbD j.val

end Sys2Proof.Machine
end

