-- ==== Sys2Proof/Certificates/Slice0/Obligations.lean ====
section
/-! DEFINITION. The statements for the provers. They speak of `exec` and `step`, of the reads `State.counter`
(`CTR[g,c]`), `State.prevOf` (`PREV[g]`), `State.readGroup` (what ENV answers now) and of the vocabulary of Safety.lean. -/

open Sys2Proof Sys2Proof.Machine

/-! The rows of the table, by what they do. -/

/-- The four FWD codes with their rows (R65, R67, R74, R76). -/
def Sys2Proof.Machine.fwdRows : List (Instr × TransCode) :=
  [(.fwd00_10, 0b0010), (.fwd01_00, 0b0100), (.fwd10_11, 0b1011), (.fwd11_01, 0b1101)]

/-- The four BWD codes with their rows (R64, R70, R71, R77). -/
def Sys2Proof.Machine.bwdRows : List (Instr × TransCode) :=
  [(.bwd00_01, 0b0001), (.bwd01_11, 0b0111), (.bwd10_00, 0b1000), (.bwd11_10, 0b1110)]

/-- The four STAY codes with their rows (R63, R68, R73, R78). -/
def Sys2Proof.Machine.stayRows : List (Instr × TransCode) :=
  [(.stay00, 0b0000), (.stay01, 0b0101), (.stay10, 0b1010), (.stay11, 0b1111)]

/-- The four AMB codes with their rows (R66, R69, R72, R75). -/
def Sys2Proof.Machine.ambRows : List (Instr × TransCode) :=
  [(.amb00_11, 0b0011), (.amb01_10, 0b0110), (.amb10_01, 0b1001), (.amb11_00, 0b1100)]

/-! ## The Decode Table -/

/-- R61: the table in index order and as a matrix of previous and current pair; and packed in bits, which the spec marks as
derived and which rests on its own decision D13, the 2-bit DELTA encoding. -/
def Obligations.TableHoldsTheListedEntries : Prop :=
  (List.finRange 16).map (fun k => deltaVal (lut (BitVec.ofFin k))) =
    [0, -1, 1, 0, 1, 0, 0, -1, -1, 0, 0, 1, 0, 1, -1, 0] ∧
  (List.finRange 4).map (fun p => (List.finRange 4).map fun q => deltaVal (lut (tcOf (BitVec.ofFin p) (BitVec.ofFin q)))) =
    [[0, -1, 1, 0], [1, 0, 0, -1], [-1, 0, 0, 1], [0, 1, -1, 0]] ∧
  ∀ k : Fin 16, lutPacked.extractLsb' (2 * k.val) 2 = deltaBits (lut (BitVec.ofFin k))

/-- R79: four entries +1, four -1, eight 0, at the listed indices. -/
def Obligations.TableCensusIsFourFourEight : Prop :=
  (List.finRange 16).filter (fun k => lut (BitVec.ofFin k) = .plus) = [2, 4, 11, 13] ∧
  (List.finRange 16).filter (fun k => lut (BitVec.ofFin k) = .minus) = [1, 7, 8, 14] ∧
  (List.finRange 16).filter (fun k => lut (BitVec.ofFin k) = .zero) = [0, 3, 5, 6, 9, 10, 12, 15]

/-- R62: each class by its condition, its codes, and its delta. -/
def Obligations.ClassesGiveTheirDeltas : Prop :=
  (∀ p q : Pair, lut (tcOf p q) = classDelta (classOf p q)) ∧
  (∀ p q : Pair, classOf p q = .stay ↔ p = q) ∧
  (∀ p q : Pair, classOf p q = .fwd ↔ q = forward p) ∧
  (∀ p q : Pair, classOf p q = .bwd ↔ p = forward q) ∧
  (∀ p q : Pair, classOf p q = .amb ↔ q = ~~~p) ∧
  (forward 0b00 = 0b10 ∧ forward 0b10 = 0b11 ∧ forward 0b11 = 0b01 ∧ forward 0b01 = 0b00) ∧
  ∀ p q : Pair,
    (classOf p q = .stay ↔ (tcOf p q).toNat ∈ [0, 5, 10, 15]) ∧
    (classOf p q = .fwd ↔ (tcOf p q).toNat ∈ [2, 11, 13, 4]) ∧
    (classOf p q = .bwd ↔ (tcOf p q).toNat ∈ [1, 7, 14, 8]) ∧
    (classOf p q = .amb ↔ (tcOf p q).toNat ∈ [3, 12, 6, 9])

/-- The spec's own law R81 (marked derived there): the closed form by `pos`, and its consequence: `j` single steps between
two samples (`j` any integer, negative for backward) are decoded by `j mod 4`, and only -1, 0 and +1 are decoded as what
happened. That the pair `j` forward steps after `p` is `pairAt (pos p + j)` is said by the first three clauses. -/
def Obligations.StepsAreDecodedModuloFour : Prop :=
  (∀ p : Pair, pairAt (pos p) = p) ∧
  (∀ j : Int, pairAt (j + 1) = forward (pairAt j)) ∧
  (pos 0b00 = 0 ∧ pos 0b10 = 1 ∧ pos 0b11 = 2 ∧ pos 0b01 = 3) ∧
  (∀ p q : Pair, lut (tcOf p q) = deltaOfSteps (pos q - pos p)) ∧
  ∀ (p : Pair) (j : Int),
    deltaVal (lut (tcOf p (pairAt (pos p + j)))) =
      (if j % 4 = 1 then 1 else if j % 4 = 3 then -1 else 0) ∧
    (deltaVal (lut (tcOf p (pairAt (pos p + j)))) = j ↔ j = -1 ∨ j = 0 ∨ j = 1)

/-- The spec's own law R82 (marked derived there): the gate-level form. -/
def Obligations.GatesComputeTheTable : Prop :=
  ∀ p q : Pair,
    lut (tcOf p q) = lutGate p q ∧
    moved p q = (((p.getLsbD 1 ^^ q.getLsbD 1) ^^ p.getLsbD 0) ^^ q.getLsbD 0) ∧
    up p q = (p.getLsbD 0 ^^ q.getLsbD 1) ∧
    (deltaBits (lut (tcOf p q))).getLsbD 0 = moved p q ∧
    (deltaBits (lut (tcOf p q))).getLsbD 1 = (moved p q && !up p q) ∧
    (moved p q = true → (p.getLsbD 1 ^^ q.getLsbD 0) = !up p q)

/-- The spec's own law R83 (marked derived there): swapping previous and current negates the delta; the codes it pairs, in
index order. -/
def Obligations.TableIsAntisymmetric : Prop :=
  (∀ p q : Pair, deltaVal (lut (tcOf q p)) = -deltaVal (lut (tcOf p q))) ∧
  (List.finRange 16).map (fun k => (tcOf (tcCur (BitVec.ofFin k)) (tcPrev (BitVec.ofFin k))).toNat) =
    [0, 4, 8, 12, 1, 5, 9, 13, 2, 6, 10, 14, 3, 7, 11, 15]

/-- The spec's decision D14 (marked derived there): swapping the two lines of a channel, or inverting one of them, reverses the
sign of every delta. -/
def Obligations.RewiredLinesCountTheOtherWay : Prop :=
  ∀ p q : Pair,
    deltaVal (lut (tcOf (p.rotateLeft 1) (q.rotateLeft 1))) = -deltaVal (lut (tcOf p q)) ∧
    deltaVal (lut (tcOf (p ^^^ 0b01) (q ^^^ 0b01))) = -deltaVal (lut (tcOf p q)) ∧
    deltaVal (lut (tcOf (p ^^^ 0b10) (q ^^^ 0b10))) = -deltaVal (lut (tcOf p q))

/-! ## Formats, operands and counter words -/

/-- R47, R49, R56: the slices of a raw sample, bit for bit, and the transition code of two pairs; and the delta sign-extended
to 32 bits, which rests on the spec's own decisions D13 (the DELTA encoding) and D5 (two's complement; log entry 7). -/
def Obligations.OperandsAreAssembledBitForBit : Prop :=
  (∀ (x : Raw) (c : Chan),
    (pairOf x c).getLsbD 1 = x.getLsbD (2 * c.val + 1) ∧ (pairOf x c).getLsbD 0 = x.getLsbD (2 * c.val) ∧
    (pairOf x c).toNat = x.toNat / 4 ^ c.val % 4) ∧
  (∀ p q : Pair,
    (tcOf p q).getLsbD 3 = p.getLsbD 1 ∧ (tcOf p q).getLsbD 2 = p.getLsbD 0 ∧
    (tcOf p q).getLsbD 1 = q.getLsbD 1 ∧ (tcOf p q).getLsbD 0 = q.getLsbD 0 ∧
    (tcOf p q).toNat = 4 * p.toNat + q.toNat) ∧
  (deltaWord .zero = 0x00000000 ∧ deltaWord .plus = 0x00000001 ∧ deltaWord .minus = 0xFFFFFFFF)

/-- The spec's decision D5 (R14, R51; log entry 7): a counter word is a two's complement integer; `val` and `word` undo each other in the range. -/
def Obligations.CounterWordIsTwosComplement : Prop :=
  (∀ w : CtrWord, val w = if w.toNat < 2147483648 then (w.toNat : Int) else w.toNat - 4294967296) ∧
  (∀ w : CtrWord, InRange (val w) ∧ word (val w) = w) ∧
  (∀ i : Int, InRange i → val (word i) = i) ∧
  (∀ w : CtrWord, val w = -2147483648 * (if w.getLsbD 31 then 1 else 0) + ((w.toNat % 2147483648 : Nat) : Int))

/-- The spec's decision D6 (R89; log entry 8): within the range adding a delta is exact; at either end the counter wraps. -/
def Obligations.CounterWrapsAtTheEnds : Prop :=
  (∀ (w : CtrWord) (d : Delta), InRange (val w + deltaVal d) → val (addDelta w d) = val w + deltaVal d) ∧
  (∀ w : CtrWord, val w = 2147483647 → val (addDelta w .plus) = -2147483648) ∧
  (∀ w : CtrWord, val w = -2147483648 → val (addDelta w .minus) = 2147483647) ∧
  (∀ (w : CtrWord) (d : Delta), ((addDelta w d).toNat : Int) = (w.toNat + deltaVal d) % 4294967296)

/-- The spec's decision D6 (R132; log entry 8): the difference of two snapshots, taken modulo 2^32, is the number of net steps between them, wrap or not, while
fewer than 2^31 net steps fall between them. -/
def Obligations.SnapshotDifferenceSurvivesWrap : Prop :=
  ∀ i j : Int, InRange (j - i) → val (word j - word i) = j - i

/-- The spec's decision D4 (R13, R53): the counter address `4*g + c` numbers the sixteen channels, each once. -/
def Obligations.CounterAddressesNameEachChannelOnce : Prop :=
  (∀ g c, (flat g c).val = 4 * (Group.id g).val + c.val) ∧
  (∀ g h c d, flat g c = flat h d → g = h ∧ c = d) ∧
  (∀ k : Fin 16, flat (Group.ofId ⟨k.val / 4, by omega⟩) ⟨k.val % 4, by omega⟩ = k) ∧
  ∀ (s : State) (g : Group) (c : Chan), s.memReadCtrs (flat g c) = s.counter g c

/-! ## Encoding -/

/-- Words written out bit by bit from the table's encodings. The DELTA, SEQ and CTRADDR words are the spec's own decisions
D13, D12 and D4; that a word carries its format is the model's choice (log entry 1). -/
def Obligations.WrittenOutWordsDecode : Prop :=
  decode ⟨.tc, 0b0001⟩ = .ok .bwd00_01 ∧
  decode ⟨.tc, 0b1011⟩ = .ok .fwd10_11 ∧
  decode ⟨.delta, 0b11⟩ = .ok .dec ∧
  decode ⟨.seqOp, 0b010000⟩ = .ok .seedC ∧
  decode ⟨.seqOp, 0b110000⟩ = .ok (.sampleC .rd) ∧
  decode ⟨.seqUstep, 0b101011⟩ = .ok (.ustepCh2 .b) ∧
  decode ⟨.ctrAddr, 0b0110⟩ = .ok (.rdctr .b 2) ∧
  decode ⟨.rst, 0b1⟩ = .ok .reset

/-- Decode and encode agree, both ways: a word means an operation exactly where it is that operation's word, so no
operand bit is dropped, no two words mean the same and none means two. That a word carries its format is the model's choice
(log entry 1), and so is a SAMPLE word at another micro-step than RD (log entry 10). -/
def Obligations.DecodeInvertsEncode : Prop :=
  ∀ (r : Request) (i : Instr), decode r = .ok i ↔ r = encode i

/-- Exactly the patterns the formats use decode; every other word is rejected. The rejections are the model's choice (log entry
15, after U14 and the spec's decisions D12 and D13): the spec says of these patterns only that they never occur. -/
def Obligations.OnlyUsedPatternsDecode : Prop :=
  ∀ r : Request, (∃ i, decode r = .ok i) ↔ r.wf = true

/-! ## The transition codes and the counter effects -/

/-- R65, R67, R74, R76, R86: a FWD code counts one up, and nothing else changes but the position. -/
def Obligations.ForwardCodesCountUp : Prop :=
  ∀ row ∈ fwdRows, ∀ (s : State) (g : Group) (c : Chan) (p8 n8 : Raw),
    s.seq = .run g (.ch c) → s.prevOf g = some p8 → s.new = some n8 →
    tcOf (pairOf p8 c) (pairOf n8 c) = row.2 →
    lut row.2 = .plus ∧
    exec row.1 s = .next { s with
      ctr := s.ctr.set (flat g c).val (s.counter g c + 1) (flat g c).isLt
      seq := nextSeq s.seq }

/-- R64, R70, R71, R77, R87: a BWD code counts one down, and nothing else changes but the position. -/
def Obligations.BackwardCodesCountDown : Prop :=
  ∀ row ∈ bwdRows, ∀ (s : State) (g : Group) (c : Chan) (p8 n8 : Raw),
    s.seq = .run g (.ch c) → s.prevOf g = some p8 → s.new = some n8 →
    tcOf (pairOf p8 c) (pairOf n8 c) = row.2 →
    lut row.2 = .minus ∧
    exec row.1 s = .next { s with
      ctr := s.ctr.set (flat g c).val (s.counter g c - 1) (flat g c).isLt
      seq := nextSeq s.seq }

/-- R63, R66, R68, R69, R72, R73, R75, R78, R88: a STAY or AMB code holds the counter, and nothing else changes but the
position: the two kinds leave the same state behind (R21, R113). -/
def Obligations.StayAndAmbiguousCodesHold : Prop :=
  ∀ row ∈ stayRows ++ ambRows, ∀ (s : State) (g : Group) (c : Chan) (p8 n8 : Raw),
    s.seq = .run g (.ch c) → s.prevOf g = some p8 → s.new = some n8 →
    tcOf (pairOf p8 c) (pairOf n8 c) = row.2 →
    lut row.2 = .zero ∧ exec row.1 s = .next { s with seq := nextSeq s.seq }

/-- R86, R87, R88: the three effects, where the table gives their delta. -/
def Obligations.EffectsAddTheirDelta : Prop :=
  ∀ (s : State) (g : Group) (c : Chan) (p8 n8 : Raw),
    s.seq = .run g (.ch c) → s.prevOf g = some p8 → s.new = some n8 →
    (lut (tcOf (pairOf p8 c) (pairOf n8 c)) = .plus →
      exec .inc s = .next { s with
        ctr := s.ctr.set (flat g c).val (s.counter g c + 1) (flat g c).isLt
        seq := nextSeq s.seq }) ∧
    (lut (tcOf (pairOf p8 c) (pairOf n8 c)) = .minus →
      exec .dec s = .next { s with
        ctr := s.ctr.set (flat g c).val (s.counter g c + 0xFFFFFFFF) (flat g c).isLt
        seq := nextSeq s.seq }) ∧
    (lut (tcOf (pairOf p8 c) (pairOf n8 c)) = .zero → exec .hold s = .next { s with seq := nextSeq s.seq })

/-- R85, R90: the micro-step CHc is CHDEC of its channel; no other counter, no baseline and nothing else changes. -/
def Obligations.ChannelMicroStepAddsTheTableEntry : Prop :=
  ∀ (s : State) (g : Group) (c : Chan) (p8 n8 : Raw),
    s.seq = .run g (.ch c) → s.prevOf g = some p8 → s.new = some n8 →
    ∃ t, exec (ustepOf g (.ch c)) s = .next t ∧
      t.counter g c = word (val (s.counter g c) + deltaVal (lut (tcOf (pairOf p8 c) (pairOf n8 c)))) ∧
      (∀ h d, ¬(h = g ∧ d = c) → t.counter h d = s.counter h d) ∧
      t.prev = s.prev ∧ t.new = s.new ∧ t.seq = nextSeq s.seq ∧
      t.pending = s.pending ∧ t.answers = s.answers ∧ t.draws = s.draws ∧ t.reads = s.reads

/-! ## The Sampling Loop -/

/-- The next-state function, row by row (R97; the order of the seeds is the spec's decision D8). -/
def Obligations.SequencerVisitsPositionsInOrder : Prop :=
  nextSeq (.seed .a) = .seed .b ∧ nextSeq (.seed .b) = .seed .c ∧ nextSeq (.seed .c) = .seed .d ∧
  nextSeq (.seed .d) = .run .a .rd ∧
  (∀ g, nextSeq (.run g .rd) = .run g (.ch 0)) ∧
  (∀ g, nextSeq (.run g (.ch 0)) = .run g (.ch 1)) ∧
  (∀ g, nextSeq (.run g (.ch 1)) = .run g (.ch 2)) ∧
  (∀ g, nextSeq (.run g (.ch 2)) = .run g (.ch 3)) ∧
  (∀ g, nextSeq (.run g (.ch 3)) = .run g .latch) ∧
  nextSeq (.run .a .latch) = .run .b .rd ∧ nextSeq (.run .b .latch) = .run .c .rd ∧
  nextSeq (.run .c .latch) = .run .d .rd ∧ nextSeq (.run .d .latch) = .run .a .rd

/-- R98: SEED.g (SEED.A, SEED.B, SEED.C, SEED.D) makes what ENV presents the group's baseline; no counter, no other baseline,
no decode. It runs at its own position only, and the sequencer never comes back to that position. -/
def Obligations.SeedStoresTheBaseline : Prop :=
  (∀ (g : Group) (s : State), s.seq = .seed g →
    ∃ t, exec (seedOf g) s = .next t ∧
      t.prevOf g = some s.readGroup ∧ (∀ h, h ≠ g → t.prevOf h = s.prevOf h) ∧
      t.ctr = s.ctr ∧ t.new = s.new ∧ t.seq = nextSeq s.seq ∧ t.reads = s.reads ∧ t.pending = s.pending) ∧
  (∀ (g : Group) (s t : State), exec (seedOf g) s = .next t → s.seq = .seed g) ∧
  ∀ (g : Group) (n : Nat), nextSeq^[n + 1] (.seed g) ≠ .seed g

/-- The micro-steps RD, CH0, CH1, CH2, CH3, LATCH (R100, the spec's decision D1): RD takes the sample, CHc decodes channel c from the baseline and the sample, LATCH makes the sample the baseline;
each advances the position. (What `NEW` holds after LATCH: `NewHoldsNoValueAfterLatch`.) -/
def Obligations.MicroStepsReadDecodeAndLatch : Prop :=
  ∀ (g : Group) (s : State),
    (s.seq = .run g .rd →
      ∃ t, exec (.ustepRd g) s = .next t ∧ t.new = some s.readGroup ∧ t.seq = .run g (.ch 0) ∧
        t.ctr = s.ctr ∧ t.prev = s.prev ∧ t.reads = s.reads ∧ t.pending = s.pending) ∧
    (∀ p8 n8, s.prevOf g = some p8 → s.new = some n8 →
      (s.seq = .run g (.ch 0) →
        exec (.ustepCh0 g) s = .next { chdec g 0 (p8.extractLsb' 0 2) (n8.extractLsb' 0 2) s with seq := .run g (.ch 1) }) ∧
      (s.seq = .run g (.ch 1) →
        exec (.ustepCh1 g) s = .next { chdec g 1 (p8.extractLsb' 2 2) (n8.extractLsb' 2 2) s with seq := .run g (.ch 2) }) ∧
      (s.seq = .run g (.ch 2) →
        exec (.ustepCh2 g) s = .next { chdec g 2 (p8.extractLsb' 4 2) (n8.extractLsb' 4 2) s with seq := .run g (.ch 3) }) ∧
      (s.seq = .run g (.ch 3) →
        exec (.ustepCh3 g) s = .next { chdec g 3 (p8.extractLsb' 6 2) (n8.extractLsb' 6 2) s with seq := .run g .latch })) ∧
    (∀ n8, s.seq = .run g .latch → s.new = some n8 →
      ∃ t, exec (.ustepLatch g) s = .next t ∧ t.prevOf g = some n8 ∧ (∀ h, h ≠ g → t.prevOf h = s.prevOf h) ∧
        t.seq = .run (nextGroup g) .rd ∧ t.ctr = s.ctr ∧ t.reads = s.reads ∧ t.pending = s.pending ∧
        t.answers = s.answers ∧ t.draws = s.draws)

/-- The model's reading of R19 (log entry 3): a LATCH, and a whole SAMPLE, leave `NEW` without a value. -/
def Obligations.NewHoldsNoValueAfterLatch : Prop :=
  ∀ (g : Group) (s t : State),
    (exec (.ustepLatch g) s = .next t → t.new = none) ∧ ∀ u, exec (sampleOf g u) s = .next t → t.new = none

/-- R99: SAMPLE.g (SAMPLE.A, SAMPLE.B, SAMPLE.C, SAMPLE.D) as one transition: every channel of the group adds the table entry of its pair in the old baseline and
in the sample; the sample becomes the baseline; no counter or baseline of another group changes. -/
def Obligations.SampleDecodesThenKeepsTheSample : Prop :=
  ∀ (g : Group) (s : State) (p8 : Raw), s.seq = .run g .rd → s.prevOf g = some p8 →
    ∃ t, exec (sampleOf g .rd) s = .next t ∧
      (∀ c, t.counter g c = addDelta (s.counter g c) (channelDelta c p8 s.readGroup)) ∧
      (∀ h c, h ≠ g → t.counter h c = s.counter h c) ∧
      t.prevOf g = some s.readGroup ∧ (∀ h, h ≠ g → t.prevOf h = s.prevOf h) ∧
      t.seq = .run (nextGroup g) .rd ∧ t.reads = s.reads ∧ t.pending = s.pending ∧
      t.draws = s.draws + 1 ∧ t.answers = s.answers.tail

/-- The model's own form (log entry 10): a SAMPLE in progress, named by its word at micro-step `u` after RD, is carried on
to its end: the channels not yet decoded are, the sample becomes the baseline. -/
def Obligations.SampleInProgressIsFinished : Prop :=
  ∀ (g : Group) (u : UStep) (s : State) (p8 n8 : Raw), u ≠ .rd →
    s.seq = .run g u → s.prevOf g = some p8 → s.new = some n8 →
    ∃ t, exec (sampleOf g u) s = .next t ∧
      (∀ c, t.counter g c =
        if UStep.ch c ∈ ustepsFrom u then addDelta (s.counter g c) (channelDelta c p8 n8) else s.counter g c) ∧
      (∀ h c, h ≠ g → t.counter h c = s.counter h c) ∧
      t.prevOf g = some n8 ∧ (∀ h, h ≠ g → t.prevOf h = s.prevOf h) ∧
      t.seq = .run (nextGroup g) .rd ∧ t.new = none ∧
      t.reads = s.reads ∧ t.pending = s.pending ∧ t.answers = s.answers ∧ t.draws = s.draws

/-- The six micro-steps in this order compute exactly R99 (R100, the spec's decision D1): the whole operation, faults included: six steps of the machine,
with nothing pending, answer what SAMPLE.g answers. -/
def Obligations.SixMicroStepsAreTheSample : Prop :=
  ∀ (g : Group) (s : State), s.seq = .run g .rd → s.pending = [] → steps 6 s = exec (sampleOf g .rd) s

/-- The spec's own law R96 (marked derived there): a whole SAMPLE where the sample equals the baseline, or is its complement, changes no counter; where every LO bit,
or every HI bit, is flipped, every counter of the group moves by one. -/
def Obligations.SampleCornerCases : Prop :=
  ∀ (g : Group) (s : State) (p8 : Raw), s.seq = .run g .rd → s.prevOf g = some p8 →
    ∃ t, exec (sampleOf g .rd) s = .next t ∧
      (s.readGroup = p8 ∨ s.readGroup = ~~~p8 → ∀ h c, t.counter h c = s.counter h c) ∧
      (s.readGroup = p8 ^^^ 0x55 ∨ s.readGroup = p8 ^^^ 0xAA →
        ∀ c, t.counter g c = s.counter g c + 1 ∨ t.counter g c = s.counter g c - 1)

/-- R95: decoding group g never changes a counter of another group; decoding a channel never changes another channel's; and
the counter of channel (g,c) after SAMPLE.g depends on that channel alone: two states that agree on its counter and on its
pairs in the baseline and in the sample agree on its counter afterwards, whatever else they hold. -/
def Obligations.ChannelDependsOnItsOwnPairsOnly : Prop :=
  (∀ (g h : Group) (c : Chan) (s t : State), exec (sampleOf g .rd) s = .next t → h ≠ g → t.counter h c = s.counter h c) ∧
  (∀ (g h : Group) (c d : Chan) (s t : State), exec (ustepOf g (.ch c)) s = .next t → ¬(h = g ∧ d = c) →
    t.counter h d = s.counter h d) ∧
  ∀ (g : Group) (c : Chan) (s s' t t' : State) (p8 p8' : Raw),
    s.prevOf g = some p8 → s'.prevOf g = some p8' → pairOf p8 c = pairOf p8' c →
    pairOf s.readGroup c = pairOf s'.readGroup c → s.counter g c = s'.counter g c →
    exec (sampleOf g .rd) s = .next t → exec (sampleOf g .rd) s' = .next t' →
    t.counter g c = t'.counter g c

/-- R94: `k + 2` steps into a SAMPLE (RD, then CH0 to CHk), the counters of channels 0 to k carry this sample's delta, those of
the later channels do not yet, and the baseline is still the old one; the state after all four channels is the same for any
order of them. -/
def Obligations.CountersChangeOneChannelAtATime : Prop :=
  (∀ (g : Group) (p8 n8 : Raw) (s : State) (order : List Chan), order.Perm [0, 1, 2, 3] →
    order.foldl (fun t c => chdec g c (pairOf p8 c) (pairOf n8 c) t) s = grpdec g p8 n8 s) ∧
  ∀ (g : Group) (k : Fin 4) (s : State) (p8 : Raw),
    s.seq = .run g .rd → s.prevOf g = some p8 → s.pending = [] →
    ∃ t, steps (k.val + 2) s = .next t ∧
      (∀ c : Chan, c ≤ k → t.counter g c = addDelta (s.counter g c) (channelDelta c p8 s.readGroup)) ∧
      (∀ c : Chan, k < c → t.counter g c = s.counter g c) ∧ t.prevOf g = some p8

/-! ## The other agents -/

/-- The spec's decision D10 (R107): RDCTR gives READER the whole counter word and changes nothing of QDEC. -/
def Obligations.SnapshotReadsAndChangesNothing : Prop :=
  ∀ (g : Group) (c : Chan) (s : State),
    exec (.rdctr g c) s = .next { s with reads := ⟨g, c, s.ctr[4 * (Group.id g).val + c.val]'(flat g c).isLt⟩ :: s.reads }

/-- The spec's decision D7 (R124): RESET zeroes every counter, empties `PREV` and `NEW`, and puts the position at (SEED, A, RD), from any state. -/
def Obligations.ResetPutsTheResetState : Prop :=
  ∀ s : State, ∃ t, exec .reset s = .next t ∧
    (∀ k : Fin 16, t.ctr[k] = 0x00000000) ∧ (∀ g, t.prevOf g = none) ∧ t.new = none ∧ t.seq = .seed .a

/-- The spec's decision D7 (R23): the state after reset. -/
def Obligations.StateAfterReset : Prop :=
  (∀ k : Fin 16, State.reset.ctr[k] = 0x00000000) ∧ State.reset.seq = .seed .a ∧
  (∀ g, State.reset.prevOf g = none) ∧ State.reset.new = none

/-- The model's own (log entries 5, 6, 13): RESET leaves what belongs to ENV and READER as it is. -/
def Obligations.ResetLeavesTheOtherAgents : Prop :=
  ∀ s t : State, exec .reset s = .next t →
    t.pending = s.pending ∧ t.answers = s.answers ∧ t.draws = s.draws ∧ t.reads = s.reads

/-- The spec's decision D18 (R125): RESET may fall on any micro-step boundary; the CORE micro-step that was due does not happen. -/
def Obligations.ResetMayFallAnywhere : Prop :=
  ∀ (s : State) (rest : List Request), s.pending = encode .reset :: rest →
    ∃ t, step s = .next t ∧ (∀ g c, t.counter g c = 0) ∧ (∀ g, t.prevOf g = none) ∧ t.new = none ∧ t.seq = .seed .a ∧
      t.answers = s.answers

/-! ## Steps -/

/-- A pending word is decoded and run; one that names no operation is refused by name. Both are the model's choice: that the
head of `pending` is the next step (log entry 5), and that such a word is refused (log entry 15, after U14). -/
def Obligations.StepRunsThePendingEvent : Prop :=
  ∀ (s : State) (r : Request) (rest : List Request), s.pending = r :: rest →
    (∀ i, decode r = .ok i → step s = exec i { s with pending := rest }) ∧
    (∀ e, decode r = .error e → step s = .refused (.illegalWord e))

/-- With nothing pending the step is the micro-step `SEQ` selects (R18). That an empty `pending` means CORE's turn is the
model's choice (log entry 5). -/
def Obligations.StepRunsTheSelectedMicroStep : Prop :=
  ∀ s : State, s.pending = [] →
    (∀ g, s.seq = .seed g → step s = exec (seedOf g) s) ∧
    (∀ g u, s.seq = .run g u → step s = exec (ustepOf g u) s)

/-- With nothing pending, a step at a channel position is the transition code its operands assemble to, decoded and run, and
is the counter effect the table gives that code (R57, R85). That these rows are operations of their own is the model's choice
(log entry 9); the DELTA word is the spec's own decision D13. -/
def Obligations.ChannelStepIsItsTransitionCode : Prop :=
  ∀ (s : State) (g : Group) (c : Chan) (p8 n8 : Raw), s.pending = [] →
    s.seq = .run g (.ch c) → s.prevOf g = some p8 → s.new = some n8 →
    (∃ i, decode ⟨.tc, (tcOf (pairOf p8 c) (pairOf n8 c)).zeroExtend 8⟩ = .ok i ∧ step s = exec i s) ∧
    (∃ i, decode ⟨.delta, (deltaBits (lut (tcOf (pairOf p8 c) (pairOf n8 c)))).zeroExtend 8⟩ = .ok i ∧ step s = exec i s)

/-- The spec's decision D17 (R59): an operation of CORE that the position does not select is refused. -/
def Obligations.UnselectedOperationsAreRefused : Prop :=
  ∀ s : State,
    (∀ g, s.seq ≠ .seed g → exec (seedOf g) s = .refused .notSelected) ∧
    (∀ g u, s.seq ≠ .run g u → exec (sampleOf g u) s = .refused .notSelected) ∧
    (∀ g u, s.seq ≠ .run g u → exec (ustepOf g u) s = .refused .notSelected)

/-- The model's own (log entry 9): a transition code or a counter effect is refused away from a channel position, and at one
where the operands assemble to another code or give another delta. -/
def Obligations.UnselectedCodesAreRefused : Prop :=
  (∀ row ∈ fwdRows ++ bwdRows ++ stayRows ++ ambRows, ∀ s : State,
    ((∀ g c, s.seq ≠ .run g (.ch c)) → exec row.1 s = .refused .notSelected) ∧
    (∀ g c p8 n8, s.seq = .run g (.ch c) → s.prevOf g = some p8 → s.new = some n8 →
      tcOf (pairOf p8 c) (pairOf n8 c) ≠ row.2 → exec row.1 s = .refused .notSelected)) ∧
  (∀ row ∈ [(Instr.hold, Delta.zero), (.inc, .plus), (.dec, .minus)], ∀ s : State,
    ((∀ g c, s.seq ≠ .run g (.ch c)) → exec row.1 s = .refused .notSelected) ∧
    (∀ g c p8 n8, s.seq = .run g (.ch c) → s.prevOf g = some p8 → s.new = some n8 →
      lut (tcOf (pairOf p8 c) (pairOf n8 c)) ≠ row.2 → exec row.1 s = .refused .notSelected))

/-- The spec's own rule for "no value" (R24, U1): reading a register that holds no value is a model fault, not a zero. -/
def Obligations.ReadingNoValueFaults : Prop :=
  ∀ (s : State) (g : Group) (c : Chan),
    (s.seq = .run g (.ch c) → s.prevOf g = none → exec (ustepOf g (.ch c)) s = .fault (.prevNoValue g)) ∧
    (s.seq = .run g (.ch c) → (∃ p8, s.prevOf g = some p8) → s.new = none →
      exec (ustepOf g (.ch c)) s = .fault .newNoValue) ∧
    (s.seq = .run g .latch → s.new = none → exec (.ustepLatch g) s = .fault .newNoValue) ∧
    (s.seq = .run g .rd → s.prevOf g = none → exec (sampleOf g .rd) s = .fault (.prevNoValue g))

/-! ## Whole-machine frames -/

/-- R15: apart from RESET, a counter changes only in the decode of its own channel and only where the delta is not 0: at the
micro-step of that channel, or inside a SAMPLE of its group performed as a whole. -/
def Obligations.OnlyItsChannelDecodeWritesACounter : Prop :=
  ∀ (i : Instr) (s t : State) (g : Group) (c : Chan), i ≠ .reset → exec i s = .next t →
    t.counter g c ≠ s.counter g c →
    (s.seq = .run g (.ch c) ∧ ∃ p8 n8, s.prevOf g = some p8 ∧ s.new = some n8 ∧ channelDelta c p8 n8 ≠ .zero ∧
      t.counter g c = addDelta (s.counter g c) (channelDelta c p8 n8)) ∨
    ∃ u, i = sampleOf g u

/-- The two places of R17: apart from RESET, a baseline changes only in its group's SEED and LATCH (the LATCH of a SAMPLE performed as a whole
among them). -/
def Obligations.OnlySeedAndLatchWriteABaseline : Prop :=
  ∀ (i : Instr) (s t : State) (g : Group), i ≠ .reset → exec i s = .next t →
    t.prevOf g ≠ s.prevOf g → s.seq = .seed g ∨ s.seq = .run g .latch ∨ ∃ u, i = sampleOf g u

/-- R106: apart from RESET, the position stays (RDCTR), moves to the next one, or moves over the rest of one SAMPLE; so phase
RUN is never left, and only RESET returns to (SEED, A, RD). -/
def Obligations.OnlyResetLeavesTheOrder : Prop :=
  ∀ (i : Instr) (s t : State), i ≠ .reset → exec i s = .next t →
    ((∃ g c, i = .rdctr g c) ∧ t.seq = s.seq ∨
     (∀ g c, i ≠ .rdctr g c) ∧ (∀ g u, i ≠ sampleOf g u) ∧ t.seq = nextSeq s.seq ∨
     ∃ g u, i = sampleOf g u ∧ s.seq = .run g u ∧ t.seq = .run (nextGroup g) .rd) ∧
    (inSeedPhase s.seq = false → inSeedPhase t.seq = false) ∧ (t.seq = .seed .a → t.seq = s.seq)

/-- R29, R30, R36: exactly the SEEDs, the RD micro-steps and a whole SAMPLE call `ReadGroup`, once each, and take one answer
from ENV; no other operation calls it (by the model's call count, log entry 4). -/
def Obligations.ReadGroupIsCalledOncePerSample : Prop :=
  ∀ (i : Instr) (s t : State), exec i s = .next t →
    ((∃ g, i = seedOf g ∨ i = .ustepRd g ∨ i = sampleOf g .rd) →
      t.draws = s.draws + 1 ∧ t.answers = s.answers.tail) ∧
    ((∀ g, i ≠ seedOf g ∧ i ≠ .ustepRd g ∧ i ≠ sampleOf g .rd) → t.draws = s.draws ∧ t.answers = s.answers)

/-! ## Invariants and runs -/

/-- The reset state is a legal one. -/
def Obligations.ResetStateIsLegal : Prop := Legal State.reset

/-- Every step from a legal state, whatever is pending and whatever ENV answers, gives a legal state: the registers that hold a
value are exactly those the position says, and no counter has moved before the seed phase is over. -/
def Obligations.StepsKeepStatesLegal : Prop :=
  ∀ s t : State, Legal s → step s = .next t → Legal t

/-- What R24 says of the sequencer: from a legal state no step reads a register that holds no value: no step faults. -/
def Obligations.LegalStatesNeverFault : Prop :=
  ∀ (s : State) (e : Fault), Legal s → step s ≠ .fault e

/-- R102, R105: with nothing pending CORE always has a micro-step, and performing it advances the position; so under the premise
P_FAIR (R137, the spec's own; log entry 24) every micro-step of the steady state eventually comes to be due. -/
def Obligations.CoreIsNeverStuck : Prop :=
  (∀ s : State, Legal s → s.pending = [] → ∃ t, step s = .next t ∧ t.seq = nextSeq s.seq ∧ t.pending = []) ∧
  ∀ (s : State) (g : Group) (u : UStep), Legal s → PFair s →
    ∃ n t, steps n s = .next t ∧ t.seq = .run g u ∧ t.pending = []

/-- R126, under the premise P_RESET: after RESET four micro-steps seed the baselines with what ENV presents, counting nothing,
and the first iteration begins; then P_BOOTED holds. -/
def Obligations.BootSeedsAndCountsNothing : Prop :=
  ∀ (t : State) (x : Group → Raw) (rest : List Raw), PReset t → t.pending = [] →
    t.answers = roundAnswers x ++ rest →
    ∃ u, steps 4 t = .next u ∧ (∀ g c, u.counter g c = 0) ∧ (∀ g, u.prevOf g = some (x g)) ∧ AtIterationBoundary u ∧
      PBooted u ∧ u.answers = rest

/-- R101: one iteration, 24 steps from an iteration boundary: every channel is decoded exactly once against its group's
baseline, each group takes one sample, and it becomes the baseline. -/
def Obligations.IterationDecodesEveryChannelOnce : Prop :=
  ∀ (s : State) (p x : Group → Raw) (rest : List Raw), AtIterationBoundary s → s.pending = [] →
    (∀ g, s.prevOf g = some (p g)) → s.answers = roundAnswers x ++ rest →
    ∃ t, steps 24 s = .next t ∧ AtIterationBoundary t ∧
      (∀ g c, t.counter g c = addDelta (s.counter g c) (channelDelta c (p g) (x g))) ∧
      (∀ g, t.prevOf g = some (x g)) ∧ t.answers = rest ∧ t.draws = s.draws + 4 ∧ t.reads = s.reads ∧ t.pending = []

/-- R25: between any two observation points at most one iteration apart, from any legal state and whatever ENV answers, every
counter changes by -1, 0 or +1, modulo 2^32: where CORE runs alone, and where snapshots fall between its micro-steps. -/
def Obligations.CountersMoveByAtMostOnePerIteration : Prop :=
  (∀ (n : Nat) (s : State), n ≤ 24 → Legal s → s.pending = [] →
    ∃ t, steps n s = .next t ∧ ∀ g c, ∃ d : Delta, t.counter g c = s.counter g c + deltaWord d) ∧
  ∀ (n : Nat) (s t : State), Legal s → encode .reset ∉ s.pending.take n → coreStepsOf n s ≤ 24 →
    steps n s = .next t → ∀ g c, ∃ d : Delta, t.counter g c = s.counter g c + deltaWord d

/-- The spec's own law R104 (marked derived there), under the premise P_RESET: the closed form at iteration boundaries: after a RESET, the four seeds and `n` iterations, whatever ENV presents, every
counter is the sum of its channel's deltas reduced to 32 bits, every baseline is the last sample, `SEQ = (RUN, A, RD)`. -/
def Obligations.CountersAreTheSumOfDeltas : Prop :=
  ∀ (n : Nat) (x : Samples) (rest : List Raw) (t : State), PReset t → t.pending = [] →
    t.answers = runAnswers x n ++ rest →
    ∃ u, steps (4 + 24 * n) t = .next u ∧ AtIterationBoundary u ∧
      (∀ g c, u.counter g c = word (deltaSum x g c n)) ∧ (∀ g, u.prevOf g = some (x n g)) ∧
      u.draws = t.draws + 4 * (n + 1) ∧ u.answers = rest

/-- R26 under the premises P_RESET and P_RANGE (R137, the spec's own): while fewer than 2^31 net steps stand on the channel, the
counter's integer is the sum of the deltas; and already while that sum stands within the range of a counter, which has one
value more, -2^31. -/
def Obligations.CounterValueIsTheTrueSumInRange : Prop :=
  ∀ (n : Nat) (x : Samples) (rest : List Raw) (t u : State) (g : Group) (c : Chan), PReset t →
    t.pending = [] → t.answers = runAnswers x n ++ rest → steps (4 + 24 * n) t = .next u →
    (PRange (deltaSum x g c n) → val (u.counter g c) = deltaSum x g c n) ∧
    (InRange (deltaSum x g c n) → val (u.counter g c) = deltaSum x g c n)

/-- The spec's own law R103 (marked derived there), under the premise P_RESET: where ENV presents the seed value again at the first SAMPLE.g, the first iteration changes no counter of group g. -/
def Obligations.UnmovedGroupCountsNothingFirst : Prop :=
  ∀ (x : Samples) (rest : List Raw) (t : State) (g : Group), PReset t → t.pending = [] →
    t.answers = runAnswers x 1 ++ rest → x 1 g = x 0 g →
    ∃ u, steps 28 t = .next u ∧ ∀ c, u.counter g c = 0

/-- The last part of R104 (marked derived there): where no transition of the channel is AMB, the sum of its deltas is, modulo 4, the distance of its last pair
from its seed pair along the forward cycle. -/
def Obligations.DeltaSumTracksThePairModuloFour : Prop :=
  ∀ (n : Nat) (x : Samples) (g : Group) (c : Chan),
    (∀ i, i < n → classOf (pairOf (x i g) c) (pairOf (x (i + 1) g) c) ≠ .amb) →
    (deltaSum x g c n - (pos (pairOf (x n g) c) - pos (pairOf (x 0 g) c))) % 4 = 0

/-- Under the premises P_RATE and P_SETUP (R129, R127, R137, the spec's own; log entry 24): the sum of a channel's deltas is its
true displacement since the seed read; `y i` is the encoder's true position at the `i`-th sample. Without P_SETUP the
displacement since the first sample is off by the false first count, at most 1. -/
def Obligations.SlowChannelIsCountedTruly : Prop :=
  ∀ (n : Nat) (x : Samples) (y : Nat → Int) (g : Group) (c : Chan), PRate x y g c n →
    (PSetup x y g c → deltaSum x g c n = y n - y 0) ∧
    (1 ≤ n → ∃ d : Delta, deltaSum x g c n = y n - y 1 + deltaVal d)

/-- The three cases of R130 (marked derived there) and its counter-example: a sampled pulse on one line (p→q→p) and a double-line pulse (p→~p→p) count net 0; the disturbance 00→11→10→00 counts
0, -1, -1. -/
def Obligations.PulsesCancel : Prop :=
  (∀ (p q : Pair) (w : CtrWord), addDelta (addDelta w (lut (tcOf p q))) (lut (tcOf q p)) = w) ∧
  (∀ (p : Pair), lut (tcOf p (~~~p)) = .zero ∧ lut (tcOf (~~~p) p) = .zero) ∧
  (deltaVal (lut (tcOf 0b00 0b11)) = 0 ∧ deltaVal (lut (tcOf 0b11 0b10)) = -1 ∧ deltaVal (lut (tcOf 0b10 0b00)) = -1)

/-! ## Scripts and torn words -/

/-- The spec's notation, decision D17 (R59, R60; log entry 19). The BOOT and ITER lines load in any state, run in nine steps to
the iteration boundary with the written baselines, and what the state had queued comes after them. And every script that
loads in a legal state runs to its end: no line is refused, each line's answers are taken by that script, and the position
is the one its lines lead to; a script loads exactly where each of its lines is well formed at the position it meets. -/
def Obligations.BootAndIterLinesRun : Prop :=
  (∀ (s : State) (x y : Group → Raw),
    ∃ l u, s.load (boot (x .a).toNat (x .b).toNat (x .c).toNat (x .d).toNat ++
          iter (y .a).toNat (y .b).toNat (y .c).toNat (y .d).toNat) = some l ∧
      steps 9 l = .next u ∧ AtIterationBoundary u ∧
      (∀ g c, u.counter g c = addDelta 0 (channelDelta c (x g) (y g))) ∧ (∀ g, u.prevOf g = some (y g)) ∧
      u.pending = s.pending ∧ u.answers = s.answers) ∧
  (∀ (s l : State) (script : List Line), Legal s → s.load script = some l →
    ∃ u, steps (script.flatMap lineRequests).length l = .next u ∧ scriptEnd s.seq script = some u.seq ∧ Legal u ∧
      u.pending = s.pending ∧ u.answers = s.answers) ∧
  ∀ (s : State) (line : Line) (rest : List Line), (s.load (line :: rest)).isSome = true ↔
    line.wf = true ∧ ∃ q, lineNext s.seq line = some q ∧ (scriptEnd q rest).isSome = true

/-- The examples of R42 (the spec's decision D22; log entry 12): the words a byte-wise read that straddles one write can see are
mixtures of the two values, and need not be either; a read of the whole word never is one. And under the premise P_CONTRACT
(R41, R137, the spec's decision D10) every value READER goes by is one its counter held at a boundary of the run. -/
def Obligations.OnlyBrokenReadsTear : Prop :=
  (GranuleMix 8 [0x000000FF, 0x00000100] 0x000001FF ∧ GranuleMix 8 [0x000000FF, 0x00000100] 0x00000000 ∧
   GranuleMix 8 [0x00000000, 0xFFFFFFFF] 0x0000FFFF) ∧
  (∀ (vs : List CtrWord) (w : CtrWord), GranuleMix 32 vs w → w ∈ vs) ∧
  ∀ (n : Nat) (s t : State) (values : List Snapshot), s.reads = [] → steps n s = .next t → PContract t values →
    ∀ v ∈ values, ∃ k u, k ≤ n ∧ steps k s = .next u ∧ u.counter v.group v.chan = v.word
end

