-- ==== Sys2Proof/Laws/State.lean ====
section
/-! SUPPORT. One lemma per field per update of `State`, and read after write for counters and baselines. -/

namespace Sys2Proof.Machine

/-! `State.advance` -/

@[simp] theorem State.advance_ctr (s : State) : (s.advance).ctr = s.ctr := rfl
@[simp] theorem State.advance_prev (s : State) : (s.advance).prev = s.prev := rfl
@[simp] theorem State.advance_seq (s : State) : (s.advance).seq = nextSeq s.seq := rfl
@[simp] theorem State.advance_new (s : State) : (s.advance).new = s.new := rfl
@[simp] theorem State.advance_pending (s : State) : (s.advance).pending = s.pending := rfl
@[simp] theorem State.advance_answers (s : State) : (s.advance).answers = s.answers := rfl
@[simp] theorem State.advance_draws (s : State) : (s.advance).draws = s.draws := rfl
@[simp] theorem State.advance_reads (s : State) : (s.advance).reads = s.reads := rfl

/-! `State.setCounter` -/

@[simp] theorem State.setCounter_ctr (s : State) (g : Group) (c : Chan) (w : CtrWord) : (s.setCounter g c w).ctr = s.ctr.set (flat g c).val w (flat g c).isLt := rfl
@[simp] theorem State.setCounter_prev (s : State) (g : Group) (c : Chan) (w : CtrWord) : (s.setCounter g c w).prev = s.prev := rfl
@[simp] theorem State.setCounter_seq (s : State) (g : Group) (c : Chan) (w : CtrWord) : (s.setCounter g c w).seq = s.seq := rfl
@[simp] theorem State.setCounter_new (s : State) (g : Group) (c : Chan) (w : CtrWord) : (s.setCounter g c w).new = s.new := rfl
@[simp] theorem State.setCounter_pending (s : State) (g : Group) (c : Chan) (w : CtrWord) : (s.setCounter g c w).pending = s.pending := rfl
@[simp] theorem State.setCounter_answers (s : State) (g : Group) (c : Chan) (w : CtrWord) : (s.setCounter g c w).answers = s.answers := rfl
@[simp] theorem State.setCounter_draws (s : State) (g : Group) (c : Chan) (w : CtrWord) : (s.setCounter g c w).draws = s.draws := rfl
@[simp] theorem State.setCounter_reads (s : State) (g : Group) (c : Chan) (w : CtrWord) : (s.setCounter g c w).reads = s.reads := rfl

/-! `State.setPrev` -/

@[simp] theorem State.setPrev_ctr (s : State) (g : Group) (v : Raw) : (s.setPrev g v).ctr = s.ctr := rfl
@[simp] theorem State.setPrev_prev (s : State) (g : Group) (v : Raw) : (s.setPrev g v).prev = s.prev.set (Group.id g).val (some v) (Group.id g).isLt := rfl
@[simp] theorem State.setPrev_seq (s : State) (g : Group) (v : Raw) : (s.setPrev g v).seq = s.seq := rfl
@[simp] theorem State.setPrev_new (s : State) (g : Group) (v : Raw) : (s.setPrev g v).new = s.new := rfl
@[simp] theorem State.setPrev_pending (s : State) (g : Group) (v : Raw) : (s.setPrev g v).pending = s.pending := rfl
@[simp] theorem State.setPrev_answers (s : State) (g : Group) (v : Raw) : (s.setPrev g v).answers = s.answers := rfl
@[simp] theorem State.setPrev_draws (s : State) (g : Group) (v : Raw) : (s.setPrev g v).draws = s.draws := rfl
@[simp] theorem State.setPrev_reads (s : State) (g : Group) (v : Raw) : (s.setPrev g v).reads = s.reads := rfl

/-! `State.setNew` -/

@[simp] theorem State.setNew_ctr (s : State) (v : Raw) : (s.setNew v).ctr = s.ctr := rfl
@[simp] theorem State.setNew_prev (s : State) (v : Raw) : (s.setNew v).prev = s.prev := rfl
@[simp] theorem State.setNew_seq (s : State) (v : Raw) : (s.setNew v).seq = s.seq := rfl
@[simp] theorem State.setNew_new (s : State) (v : Raw) : (s.setNew v).new = some v := rfl
@[simp] theorem State.setNew_pending (s : State) (v : Raw) : (s.setNew v).pending = s.pending := rfl
@[simp] theorem State.setNew_answers (s : State) (v : Raw) : (s.setNew v).answers = s.answers := rfl
@[simp] theorem State.setNew_draws (s : State) (v : Raw) : (s.setNew v).draws = s.draws := rfl
@[simp] theorem State.setNew_reads (s : State) (v : Raw) : (s.setNew v).reads = s.reads := rfl

/-! `State.dropNew` -/

@[simp] theorem State.dropNew_ctr (s : State) : (s.dropNew).ctr = s.ctr := rfl
@[simp] theorem State.dropNew_prev (s : State) : (s.dropNew).prev = s.prev := rfl
@[simp] theorem State.dropNew_seq (s : State) : (s.dropNew).seq = s.seq := rfl
@[simp] theorem State.dropNew_new (s : State) : (s.dropNew).new = none := rfl
@[simp] theorem State.dropNew_pending (s : State) : (s.dropNew).pending = s.pending := rfl
@[simp] theorem State.dropNew_answers (s : State) : (s.dropNew).answers = s.answers := rfl
@[simp] theorem State.dropNew_draws (s : State) : (s.dropNew).draws = s.draws := rfl
@[simp] theorem State.dropNew_reads (s : State) : (s.dropNew).reads = s.reads := rfl

/-! `State.answered` -/

@[simp] theorem State.answered_ctr (s : State) : (s.answered).ctr = s.ctr := rfl
@[simp] theorem State.answered_prev (s : State) : (s.answered).prev = s.prev := rfl
@[simp] theorem State.answered_seq (s : State) : (s.answered).seq = s.seq := rfl
@[simp] theorem State.answered_new (s : State) : (s.answered).new = s.new := rfl
@[simp] theorem State.answered_pending (s : State) : (s.answered).pending = s.pending := rfl
@[simp] theorem State.answered_answers (s : State) : (s.answered).answers = s.answers.tail := rfl
@[simp] theorem State.answered_draws (s : State) : (s.answered).draws = s.draws + 1 := rfl
@[simp] theorem State.answered_reads (s : State) : (s.answered).reads = s.reads := rfl

/-! Reads of a counter and of a baseline depend on their own field only. -/

theorem State.counter_eq (s : State) (g : Group) (c : Chan) : s.counter g c = s.ctr[flat g c] := rfl

theorem State.prevOf_eq (s : State) (g : Group) : s.prevOf g = s.prev[Group.id g] := rfl

theorem State.counter_congr (s t : State) (h : t.ctr = s.ctr) (g : Group) (c : Chan) : t.counter g c = s.counter g c := by
  simp [State.counter, h]

theorem State.prevOf_congr (s t : State) (h : t.prev = s.prev) (g : Group) : t.prevOf g = s.prevOf g := by
  simp [State.prevOf, h]

@[simp] theorem State.counter_advance (s : State) (g : Group) (c : Chan) : s.advance.counter g c = s.counter g c := rfl
@[simp] theorem State.counter_setPrev (s : State) (h : Group) (v : Raw) (g : Group) (c : Chan) :
    (s.setPrev h v).counter g c = s.counter g c := rfl
@[simp] theorem State.counter_setNew (s : State) (v : Raw) (g : Group) (c : Chan) : (s.setNew v).counter g c = s.counter g c := rfl
@[simp] theorem State.counter_dropNew (s : State) (g : Group) (c : Chan) : s.dropNew.counter g c = s.counter g c := rfl
@[simp] theorem State.counter_answered (s : State) (g : Group) (c : Chan) : s.answered.counter g c = s.counter g c := rfl
@[simp] theorem State.prevOf_advance (s : State) (g : Group) : s.advance.prevOf g = s.prevOf g := rfl
@[simp] theorem State.prevOf_setCounter (s : State) (h : Group) (c : Chan) (w : CtrWord) (g : Group) :
    (s.setCounter h c w).prevOf g = s.prevOf g := rfl
@[simp] theorem State.prevOf_setNew (s : State) (v : Raw) (g : Group) : (s.setNew v).prevOf g = s.prevOf g := rfl
@[simp] theorem State.prevOf_dropNew (s : State) (g : Group) : s.dropNew.prevOf g = s.prevOf g := rfl
@[simp] theorem State.prevOf_answered (s : State) (g : Group) : s.answered.prevOf g = s.prevOf g := rfl

/-! Numbering. -/

theorem group_id_injective {g h : Group} (e : Group.id g = Group.id h) : g = h := by
  cases g <;> cases h <;> simp_all [Group.id]

theorem group_id_val_inj {g h : Group} : (Group.id g).val = (Group.id h).val ↔ g = h :=
  ⟨fun e => group_id_injective (Fin.ext e), fun e => by rw [e]⟩

theorem flat_val (g : Group) (c : Chan) : (flat g c).val = 4 * (Group.id g).val + c.val := rfl

theorem flat_inj {g h : Group} {c d : Chan} : (flat g c).val = (flat h d).val ↔ g = h ∧ c = d := by
  constructor
  · intro e
    simp only [flat_val] at e
    have hc := c.isLt
    have hd := d.isLt
    exact ⟨group_id_val_inj.mp (by omega), Fin.ext (by omega)⟩
  · rintro ⟨rfl, rfl⟩
    rfl

/-- Every flat number is some channel's (R13). -/
theorem flat_surjective (k : Fin 16) : ∃ g c, flat g c = k := by
  refine ⟨Group.ofId ⟨k.val / 4, by omega⟩, ⟨k.val % 4, by omega⟩, ?_⟩
  revert k
  decide

/-! Read after write. -/

theorem State.counter_setCounter (s : State) (g h : Group) (c d : Chan) (w : CtrWord) :
    (s.setCounter g c w).counter h d = if g = h ∧ c = d then w else s.counter h d := by
  simp only [State.counter, State.setCounter_ctr, Fin.getElem_fin, Vector.getElem_set, flat_inj]

@[simp] theorem State.counter_setCounter_same (s : State) (g : Group) (c : Chan) (w : CtrWord) :
    (s.setCounter g c w).counter g c = w := by
  simp [State.counter_setCounter]

theorem State.prevOf_setPrev (s : State) (g h : Group) (v : Raw) :
    (s.setPrev g v).prevOf h = if g = h then some v else s.prevOf h := by
  simp only [State.prevOf, State.setPrev_prev, Fin.getElem_fin, Vector.getElem_set, group_id_val_inj]

@[simp] theorem State.prevOf_setPrev_same (s : State) (g : Group) (v : Raw) : (s.setPrev g v).prevOf g = some v := by
  simp [State.prevOf_setPrev]

/-- Two counter files that agree on every channel are equal. -/
theorem ctr_ext {s t : State} (h : ∀ g c, s.counter g c = t.counter g c) : s.ctr = t.ctr := by
  apply Vector.ext
  intro i hi
  obtain ⟨g, c, e⟩ := flat_surjective ⟨i, hi⟩
  have := h g c
  simpa [State.counter, e] using this

/-- Two previous-sample files that agree on every group are equal. -/
theorem prev_ext {s t : State} (h : ∀ g, s.prevOf g = t.prevOf g) : s.prev = t.prev := by
  apply Vector.ext
  intro i hi
  have : ∃ g, Group.id g = ⟨i, hi⟩ := by
    refine ⟨Group.ofId ⟨i, hi⟩, ?_⟩
    generalize (⟨i, hi⟩ : Fin 4) = k
    revert k
    decide
  obtain ⟨g, e⟩ := this
  have := h g
  simpa [State.prevOf, e] using this

/-! Reset. -/

@[simp] theorem reset_counter (g : Group) (c : Chan) : State.reset.counter g c = 0 := by
  simp [State.counter, State.reset]

@[simp] theorem reset_prevOf (g : Group) : State.reset.prevOf g = none := by
  simp [State.prevOf, State.reset]

end Sys2Proof.Machine
end

