-- ==== Sys2Proof/Laws/Ops.lean ====
section
/-! SUPPORT. What each shared operation can do, said once: the provers cite these and do not unfold the operations. -/

namespace Sys2Proof.Machine

/-! Outcomes. -/

@[simp] theorem andThen_next (s : State) (k : State → Result) : andThen (.next s) k = k s := rfl

/-- A sequence answers `next` exactly where both parts do. -/
theorem andThen_eq_next {r : Result} {k : State → Result} {t : State} :
    andThen r k = .next t ↔ ∃ s, r = .next s ∧ k s = .next t := by
  cases r <;> simp [andThen]

/-! The sequencer. -/

@[simp] theorem nextSeq_rd (g : Group) : nextSeq (.run g .rd) = .run g (.ch 0) := rfl
@[simp] theorem nextSeq_ch0 (g : Group) : nextSeq (.run g (.ch 0)) = .run g (.ch 1) := rfl
@[simp] theorem nextSeq_ch1 (g : Group) : nextSeq (.run g (.ch 1)) = .run g (.ch 2) := rfl
@[simp] theorem nextSeq_ch2 (g : Group) : nextSeq (.run g (.ch 2)) = .run g (.ch 3) := rfl
@[simp] theorem nextSeq_ch3 (g : Group) : nextSeq (.run g (.ch 3)) = .run g .latch := rfl
@[simp] theorem nextSeq_latch (g : Group) : nextSeq (.run g .latch) = .run (nextGroup g) .rd := rfl
@[simp] theorem nextSeq_seedA : nextSeq (.seed .a) = .seed .b := rfl
@[simp] theorem nextSeq_seedB : nextSeq (.seed .b) = .seed .c := rfl
@[simp] theorem nextSeq_seedC : nextSeq (.seed .c) = .seed .d := rfl
@[simp] theorem nextSeq_seedD : nextSeq (.seed .d) = .run .a .rd := rfl

/-- A run position is followed by a run position (R106). -/
theorem nextSeq_run (g : Group) (u : UStep) : ∃ h v, nextSeq (.run g u) = .run h v := by
  rcases u with _ | c | _
  · exact ⟨_, _, rfl⟩
  · fin_cases c <;> exact ⟨_, _, rfl⟩
  · exact ⟨_, _, rfl⟩

/-! ReadGroup (R29). -/

theorem readGroup_cons {s : State} {v : Raw} {rest : List Raw} (h : s.answers = v :: rest) : s.readGroup = v := by
  simp [State.readGroup, h]

/-! The delta and the addition. -/

@[simp] theorem deltaWord_zero : deltaWord .zero = 0 := by decide
@[simp] theorem deltaWord_plus : deltaWord .plus = 1 := by decide
@[simp] theorem deltaWord_minus : deltaWord .minus = 0xFFFFFFFF := by decide

theorem deltaWord_toNat (d : Delta) :
    (deltaWord d).toNat = match d with | .zero => 0 | .plus => 1 | .minus => 4294967295 := by
  cases d
  · rw [deltaWord_zero]; rfl
  · rw [deltaWord_plus]; rfl
  · rw [deltaWord_minus]; rfl

@[simp] theorem addDelta_zero (w : CtrWord) : addDelta w .zero = w := by simp [addDelta]

theorem deltaWord_eq_word (d : Delta) : deltaWord d = word (deltaVal d) := by cases d <;> decide

/-- Reduction to 32 bits is additive (R89). -/
theorem word_add (i j : Int) : word (i + j) = word i + word j := BitVec.ofInt_add i j

/-- The word of the integer a word stands for is that word (R14). -/
@[simp] theorem word_val (w : CtrWord) : word (val w) = w := by
  apply BitVec.eq_of_toNat_eq
  have := w.isLt
  simp only [word, val, BitVec.toNat_ofInt]
  split <;> omega

/-- An integer within range is the one its word stands for (R14). -/
theorem val_word {i : Int} (lo : -2147483648 ≤ i) (hi : i < 2147483648) : val (word i) = i := by
  simp only [word, val, BitVec.toNat_ofInt]
  split <;> omega

/-- The addition of CHDEC as the spec writes it: `word( val(CTR) + d )` (R85). -/
theorem addDelta_eq_word (w : CtrWord) (d : Delta) : addDelta w d = word (val w + deltaVal d) := by
  rw [word_add, word_val, ← deltaWord_eq_word]
  rfl

/-! The Channel Decoder (R85, R90). -/

theorem chdec_counter (g h : Group) (c d : Chan) (p q : Pair) (s : State) :
    (chdec g c p q s).counter h d =
      if g = h ∧ c = d then addDelta (s.counter g c) (lut (tcOf p q)) else s.counter h d := by
  cases e : lut (tcOf p q) <;>
    simp only [State.counter, chdec, e, Fin.getElem_fin, Vector.getElem_set, flat_inj, addDelta_zero]
  split
  · rename_i h; rw [h.1, h.2]
  · rfl

@[simp] theorem chdec_prev (g : Group) (c : Chan) (p q : Pair) (s : State) : (chdec g c p q s).prev = s.prev := rfl
@[simp] theorem chdec_prevOf (g h : Group) (c : Chan) (p q : Pair) (s : State) :
    (chdec g c p q s).prevOf h = s.prevOf h := rfl
@[simp] theorem chdec_seq (g : Group) (c : Chan) (p q : Pair) (s : State) : (chdec g c p q s).seq = s.seq := rfl
@[simp] theorem chdec_new (g : Group) (c : Chan) (p q : Pair) (s : State) : (chdec g c p q s).new = s.new := rfl
@[simp] theorem chdec_pending (g : Group) (c : Chan) (p q : Pair) (s : State) :
    (chdec g c p q s).pending = s.pending := rfl
@[simp] theorem chdec_answers (g : Group) (c : Chan) (p q : Pair) (s : State) :
    (chdec g c p q s).answers = s.answers := rfl
@[simp] theorem chdec_draws (g : Group) (c : Chan) (p q : Pair) (s : State) : (chdec g c p q s).draws = s.draws := rfl
@[simp] theorem chdec_reads (g : Group) (c : Chan) (p q : Pair) (s : State) : (chdec g c p q s).reads = s.reads := rfl

/-- CHDEC where the table gives 0, +1, -1 is HOLD, INC, DEC (R86 to R88). -/
theorem chdec_hold {g : Group} {c : Chan} {p q : Pair} (s : State) (h : lut (tcOf p q) = .zero) :
    chdec g c p q s = effectHold g c s := by
  simp [chdec, h, effectHold]

theorem chdec_inc {g : Group} {c : Chan} {p q : Pair} (s : State) (h : lut (tcOf p q) = .plus) :
    chdec g c p q s = effectInc g c s := by
  simp [chdec, h, effectInc, State.setCounter, addDelta]

theorem chdec_dec {g : Group} {c : Chan} {p q : Pair} (s : State) (h : lut (tcOf p q) = .minus) :
    chdec g c p q s = effectDec g c s := by
  simp [chdec, h, effectDec, State.setCounter, addDelta]

/-- Writing back the word a counter holds changes nothing. -/
theorem setCounter_self (s : State) (g : Group) (c : Chan) : s.setCounter g c (s.counter g c) = s := by
  have h : (s.setCounter g c (s.counter g c)).ctr = s.ctr := by
    apply ctr_ext
    intro h d
    rw [State.counter_setCounter]
    split
    · rename_i e; rw [e.1, e.2]
    · rfl
  calc s.setCounter g c (s.counter g c) = { s with ctr := (s.setCounter g c (s.counter g c)).ctr } := rfl
    _ = s := by rw [h]

/-- CHDEC and its three effects as one write of the counter: a HOLD writes back what is there. -/
theorem effectHold_eq (g : Group) (c : Chan) (s : State) :
    effectHold g c s = s.setCounter g c (addDelta (s.counter g c) .zero) := by
  rw [addDelta_zero, setCounter_self]; rfl

theorem effectInc_eq (g : Group) (c : Chan) (s : State) :
    effectInc g c s = s.setCounter g c (addDelta (s.counter g c) .plus) := by
  simp [effectInc, addDelta]

theorem effectDec_eq (g : Group) (c : Chan) (s : State) :
    effectDec g c s = s.setCounter g c (addDelta (s.counter g c) .minus) := by
  simp [effectDec, addDelta]

theorem chdec_eq (g : Group) (c : Chan) (p q : Pair) (s : State) :
    chdec g c p q s = s.setCounter g c (addDelta (s.counter g c) (lut (tcOf p q))) := by
  cases e : lut (tcOf p q)
  · rw [chdec_hold s e, effectHold_eq]
  · rw [chdec_inc s e, effectInc_eq]
  · rw [chdec_dec s e, effectDec_eq]

/-! The Group Decoder (R92, R95, R96). -/

theorem grpdec_eq (g : Group) (p8 n8 : Raw) (s : State) :
    grpdec g p8 n8 s =
      chdec g 3 (pairOf p8 3) (pairOf n8 3) (chdec g 2 (pairOf p8 2) (pairOf n8 2)
        (chdec g 1 (pairOf p8 1) (pairOf n8 1) (chdec g 0 (pairOf p8 0) (pairOf n8 0) s))) := rfl

theorem grpdec_counter (g h : Group) (c : Chan) (p8 n8 : Raw) (s : State) :
    (grpdec g p8 n8 s).counter h c =
      if g = h then addDelta (s.counter g c) (lut (tcOf (pairOf p8 c) (pairOf n8 c))) else s.counter h c := by
  rw [grpdec_eq]
  fin_cases c <;> simp [chdec_counter]

@[simp] theorem grpdec_prev (g : Group) (p8 n8 : Raw) (s : State) : (grpdec g p8 n8 s).prev = s.prev := rfl
@[simp] theorem grpdec_prevOf (g h : Group) (p8 n8 : Raw) (s : State) : (grpdec g p8 n8 s).prevOf h = s.prevOf h := rfl
@[simp] theorem grpdec_seq (g : Group) (p8 n8 : Raw) (s : State) : (grpdec g p8 n8 s).seq = s.seq := rfl
@[simp] theorem grpdec_new (g : Group) (p8 n8 : Raw) (s : State) : (grpdec g p8 n8 s).new = s.new := rfl
@[simp] theorem grpdec_pending (g : Group) (p8 n8 : Raw) (s : State) : (grpdec g p8 n8 s).pending = s.pending := rfl
@[simp] theorem grpdec_answers (g : Group) (p8 n8 : Raw) (s : State) : (grpdec g p8 n8 s).answers = s.answers := rfl
@[simp] theorem grpdec_draws (g : Group) (p8 n8 : Raw) (s : State) : (grpdec g p8 n8 s).draws = s.draws := rfl
@[simp] theorem grpdec_reads (g : Group) (p8 n8 : Raw) (s : State) : (grpdec g p8 n8 s).reads = s.reads := rfl

/-! What each meaning can do: if it answers `next t`, then this and nothing else. -/

theorem withPairs_next {g : Group} {c : Chan} {s t : State} {k : Pair → Pair → Result}
    (h : withPairs g c s k = .next t) :
    ∃ p8 n8, s.prevOf g = some p8 ∧ s.new = some n8 ∧ k (pairOf p8 c) (pairOf n8 c) = .next t := by
  simp only [withPairs] at h
  split at h
  · cases h
  · split at h
    · cases h
    · exact ⟨_, _, by assumption, by assumption, h⟩

theorem withPairs_some {g : Group} {c : Chan} {s : State} {p8 n8 : Raw} (k : Pair → Pair → Result)
    (hp : s.prevOf g = some p8) (hn : s.new = some n8) : withPairs g c s k = k (pairOf p8 c) (pairOf n8 c) := by
  simp [withPairs, hp, hn]

theorem atChannel_next {s t : State} {k : Group → Chan → Pair → Pair → Result} (h : atChannel s k = .next t) :
    ∃ g c p8 n8, s.seq = .run g (.ch c) ∧ s.prevOf g = some p8 ∧ s.new = some n8 ∧
      k g c (pairOf p8 c) (pairOf n8 c) = .next t := by
  simp only [atChannel] at h
  split at h
  · obtain ⟨p8, n8, hp, hn, hk⟩ := withPairs_next h
    exact ⟨_, _, p8, n8, by assumption, hp, hn, hk⟩
  all_goals cases h

theorem atChannel_run {s : State} {g : Group} {c : Chan} (k : Group → Chan → Pair → Pair → Result)
    (h : s.seq = .run g (.ch c)) : atChannel s k = withPairs g c s (k g c) := by
  simp [atChannel, h]

theorem transition_next {tc : TransCode} {effect : Group → Chan → State → State} {s t : State}
    (h : transition tc effect s = .next t) :
    ∃ g c p8 n8, s.seq = .run g (.ch c) ∧ s.prevOf g = some p8 ∧ s.new = some n8 ∧
      tcOf (pairOf p8 c) (pairOf n8 c) = tc ∧ t = (effect g c s).advance := by
  obtain ⟨g, c, p8, n8, hs, hp, hn, hk⟩ := atChannel_next h
  split at hk
  · exact ⟨g, c, p8, n8, hs, hp, hn, by assumption, (Host.Outcome.next.inj hk).symm⟩
  · cases hk

theorem transition_selected {tc : TransCode} {effect : Group → Chan → State → State} {s : State} {g : Group} {c : Chan}
    {p8 n8 : Raw} (hs : s.seq = .run g (.ch c)) (hp : s.prevOf g = some p8) (hn : s.new = some n8)
    (ht : tcOf (pairOf p8 c) (pairOf n8 c) = tc) : transition tc effect s = .next (effect g c s).advance := by
  simp [transition, atChannel_run _ hs, withPairs_some _ hp hn, ht]

theorem countEffect_next {d : Delta} {effect : Group → Chan → State → State} {s t : State}
    (h : countEffect d effect s = .next t) :
    ∃ g c p8 n8, s.seq = .run g (.ch c) ∧ s.prevOf g = some p8 ∧ s.new = some n8 ∧
      lut (tcOf (pairOf p8 c) (pairOf n8 c)) = d ∧ t = (effect g c s).advance := by
  obtain ⟨g, c, p8, n8, hs, hp, hn, hk⟩ := atChannel_next h
  split at hk
  · exact ⟨g, c, p8, n8, hs, hp, hn, by assumption, (Host.Outcome.next.inj hk).symm⟩
  · cases hk

theorem countEffect_selected {d : Delta} {effect : Group → Chan → State → State} {s : State} {g : Group} {c : Chan}
    {p8 n8 : Raw} (hs : s.seq = .run g (.ch c)) (hp : s.prevOf g = some p8) (hn : s.new = some n8)
    (hd : lut (tcOf (pairOf p8 c) (pairOf n8 c)) = d) : countEffect d effect s = .next (effect g c s).advance := by
  simp [countEffect, atChannel_run _ hs, withPairs_some _ hp hn, hd]

theorem seedStep_next {g : Group} {s t : State} (h : seedStep g s = .next t) :
    s.seq = .seed g ∧ t = (s.answered.setPrev g s.readGroup).advance := by
  simp only [seedStep] at h
  split at h
  · exact ⟨by assumption, (Host.Outcome.next.inj h).symm⟩
  · cases h

theorem readStep_next {g : Group} {s t : State} (h : readStep g s = .next t) :
    s.seq = .run g .rd ∧ t = (s.answered.setNew s.readGroup).advance := by
  simp only [readStep] at h
  split at h
  · exact ⟨by assumption, (Host.Outcome.next.inj h).symm⟩
  · cases h

theorem channelStep_next {g : Group} {c : Chan} {s t : State} (h : channelStep g c s = .next t) :
    ∃ p8 n8, s.seq = .run g (.ch c) ∧ s.prevOf g = some p8 ∧ s.new = some n8 ∧
      t = (chdec g c (pairOf p8 c) (pairOf n8 c) s).advance := by
  simp only [channelStep] at h
  split at h
  · obtain ⟨p8, n8, hp, hn, hk⟩ := withPairs_next h
    exact ⟨p8, n8, by assumption, hp, hn, (Host.Outcome.next.inj hk).symm⟩
  · cases h

theorem channelStep_selected {g : Group} {c : Chan} {s : State} {p8 n8 : Raw} (hs : s.seq = .run g (.ch c))
    (hp : s.prevOf g = some p8) (hn : s.new = some n8) :
    channelStep g c s = .next (chdec g c (pairOf p8 c) (pairOf n8 c) s).advance := by
  simp [channelStep, hs, withPairs_some _ hp hn]

theorem latchStep_next {g : Group} {s t : State} (h : latchStep g s = .next t) :
    ∃ n8, s.seq = .run g .latch ∧ s.new = some n8 ∧ t = (s.setPrev g n8).dropNew.advance := by
  simp only [latchStep] at h
  split at h
  · split at h
    · cases h
    · exact ⟨_, by assumption, by assumption, (Host.Outcome.next.inj h).symm⟩
  · cases h

theorem latchStep_selected {g : Group} {s : State} {n8 : Raw} (hs : s.seq = .run g .latch) (hn : s.new = some n8) :
    latchStep g s = .next (s.setPrev g n8).dropNew.advance := by
  simp [latchStep, hs, hn]

theorem sampleWhole_next {g : Group} {s t : State} (h : sampleWhole g s = .next t) :
    ∃ p8, s.seq = .run g .rd ∧ s.prevOf g = some p8 ∧
      t = { (((grpdec g p8 s.readGroup s.answered).setPrev g s.readGroup).dropNew) with seq := .run (nextGroup g) .rd } := by
  simp only [sampleWhole] at h
  split at h
  · split at h
    · cases h
    · exact ⟨_, by assumption, by assumption, (Host.Outcome.next.inj h).symm⟩
  · cases h

theorem sampleWhole_selected {g : Group} {s : State} {p8 : Raw} (hs : s.seq = .run g .rd) (hp : s.prevOf g = some p8) :
    sampleWhole g s =
      .next { (((grpdec g p8 s.readGroup s.answered).setPrev g s.readGroup).dropNew) with seq := .run (nextGroup g) .rd } := by
  simp [sampleWhole, hs, hp]

theorem resetQdec_next {s t : State} (h : resetQdec s = .next t) :
    t = { s with ctr := Vector.replicate 16 0, prev := Vector.replicate 4 none, new := none, seq := .seed .a } :=
  (Host.Outcome.next.inj h).symm

theorem snapshot_next {g : Group} {c : Chan} {s t : State} (h : snapshot g c s = .next t) :
    t = { s with reads := ⟨g, c, s.counter g c⟩ :: s.reads } :=
  (Host.Outcome.next.inj h).symm

end Sys2Proof.Machine
end

