-- ==== Sys2Proof/Laws/Steps.lean ====
section
/-! SUPPORT. Runs of several steps, and the decoding of a position's own word: what claims about `step` and `steps`
are assembled from. -/

namespace Sys2Proof.Machine

@[simp] theorem steps_zero (s : State) : steps 0 s = .next s := rfl

theorem steps_succ (n : Nat) (s : State) : steps (n + 1) s = andThen (step s) (steps n) := by
  simp only [steps, Host.Core.run]
  have e : Sys2Proof.core.step s = step s := rfl
  rw [e]
  cases step s <;> rfl

theorem steps_add (m n : Nat) (s : State) : steps (m + n) s = andThen (steps m s) (steps n) := by
  induction m generalizing s with
  | zero => simp
  | succ m ih =>
    rw [Nat.add_right_comm, steps_succ, steps_succ]
    cases step s <;> simp [andThen, ih]

/-- With nothing pending, what is fetched is the position's own word, and nothing changes. -/
theorem fetch_nothing_pending {s : State} (h : s.pending = []) : s.fetch = (s.seq.request, s) := by
  simp [State.fetch, h]

theorem fetch_pending {s : State} {r : Request} {rest : List Request} (h : s.pending = r :: rest) :
    s.fetch = (r, { s with pending := rest }) := by
  simp [State.fetch, h]

/-- The word of a position is the word of the micro-step it selects (R55). -/
theorem decode_seed_request (g : Group) : decode (Seq.request (.seed g)) = .ok (seedOf g) := by
  cases g <;> rfl

theorem decode_run_request (g : Group) (u : UStep) : decode (Seq.request (.run g u)) = .ok (ustepOf g u) := by
  rcases u with _ | c | _
  · cases g <;> rfl
  · fin_cases c <;> cases g <;> rfl
  · cases g <;> rfl

/-! `exec` on the operations of a group, the group being a variable. -/

theorem exec_seedOf (g : Group) (s : State) : exec (seedOf g) s = seedStep g s := by cases g <;> rfl

theorem exec_sampleOf (g : Group) (u : UStep) (s : State) : exec (sampleOf g u) s = sampleFrom g u s := by
  cases g <;> rfl

theorem exec_ustepOf (g : Group) (u : UStep) (s : State) : exec (ustepOf g u) s = ustep g u s := by
  rcases u with _ | c | _
  · rfl
  · fin_cases c <;> rfl
  · rfl

/-- Two states with equal fields are equal. -/
theorem State.ext_fields {a b : State} (h1 : a.ctr = b.ctr) (h2 : a.prev = b.prev) (h3 : a.seq = b.seq)
    (h4 : a.new = b.new) (h5 : a.pending = b.pending) (h6 : a.answers = b.answers) (h7 : a.draws = b.draws)
    (h8 : a.reads = b.reads) : a = b := by
  cases a
  cases b
  simp_all

end Sys2Proof.Machine
end

