-- ==== Sys2Proof/Laws/Exec.lean ====
section
/-! SUPPORT. Everything `exec` can do, said once: where it answers `next t`, one of the cases of `ExecCase` holds, and
each says what `t` is. The whole-machine frames and the invariant are read off it. -/

namespace Sys2Proof.Machine

/-- The rows that decode one channel: the transition codes, the counter effects, and CH0 to CH3. -/
def isChannelDecode : Instr → Bool
  | .stay00 | .bwd00_01 | .fwd00_10 | .amb00_11 | .fwd01_00 | .stay01 | .amb01_10 | .bwd01_11
  | .bwd10_00 | .amb10_01 | .stay10 | .fwd10_11 | .amb11_00 | .fwd11_01 | .bwd11_10 | .stay11
  | .hold | .inc | .dec => true
  | .ustepCh0 _ | .ustepCh1 _ | .ustepCh2 _ | .ustepCh3 _ => true
  | .seedA | .seedB | .seedC | .seedD => false
  | .sampleA _ | .sampleB _ | .sampleC _ | .sampleD _ => false
  | .ustepRd _ | .ustepLatch _ | .rdctr _ _ | .reset => false

inductive ExecCase (i : Instr) (s t : State) : Prop where
  /-- One channel was decoded: its counter takes the delta of its pairs, and the position advances. -/
  | decoded (g : Group) (c : Chan) (p8 n8 : Raw) (row : isChannelDecode i = true) (seq : s.seq = .run g (.ch c))
      (prev : s.prevOf g = some p8) (new : s.new = some n8)
      (eq : t = (s.setCounter g c (addDelta (s.counter g c) (channelDelta c p8 n8))).advance)
  | seeded (g : Group) (row : i = seedOf g) (seq : s.seq = .seed g)
      (eq : t = (s.answered.setPrev g s.readGroup).advance)
  | sampled (g : Group) (row : i = .ustepRd g) (seq : s.seq = .run g .rd)
      (eq : t = (s.answered.setNew s.readGroup).advance)
  | latched (g : Group) (n8 : Raw) (row : i = .ustepLatch g) (seq : s.seq = .run g .latch) (new : s.new = some n8)
      (eq : t = (s.setPrev g n8).dropNew.advance)
  /-- (The rest of) a SAMPLE was performed as a whole; `sampleFrom_next` says what that does. -/
  | whole (g : Group) (u : UStep) (row : i = sampleOf g u) (eq : sampleFrom g u s = .next t)
  | read (g : Group) (c : Chan) (row : i = .rdctr g c) (eq : t = { s with reads := ⟨g, c, s.counter g c⟩ :: s.reads })
  | reset (row : i = .reset)
      (eq : t = { s with ctr := Vector.replicate 16 0, prev := Vector.replicate 4 none, new := none, seq := .seed .a })

/-- A decoding row is none of the others. -/
theorem not_seedOf_of_decode {i : Instr} (h : isChannelDecode i = true) (g : Group) : i ≠ seedOf g := by
  rintro rfl; cases g <;> cases h

theorem not_sampleOf_of_decode {i : Instr} (h : isChannelDecode i = true) (g : Group) (u : UStep) : i ≠ sampleOf g u := by
  rintro rfl; cases g <;> cases h

theorem ExecCase.of_transition {i : Instr} {tc : TransCode} {effect : Group → Chan → State → State} {s t : State}
    (row : isChannelDecode i = true)
    (he : ∀ g c, effect g c s = s.setCounter g c (addDelta (s.counter g c) (lut tc)))
    (h : transition tc effect s = .next t) : ExecCase i s t := by
  obtain ⟨g, c, p8, n8, hs, hp, hn, ht, rfl⟩ := transition_next h
  refine .decoded g c p8 n8 row hs hp hn ?_
  rw [he, channelDelta, ht]

theorem ExecCase.of_countEffect {i : Instr} {d : Delta} {effect : Group → Chan → State → State} {s t : State}
    (row : isChannelDecode i = true)
    (he : ∀ g c, effect g c s = s.setCounter g c (addDelta (s.counter g c) d))
    (h : countEffect d effect s = .next t) : ExecCase i s t := by
  obtain ⟨g, c, p8, n8, hs, hp, hn, hd, rfl⟩ := countEffect_next h
  refine .decoded g c p8 n8 row hs hp hn ?_
  rw [he, channelDelta, hd]

theorem ExecCase.of_channelStep {i : Instr} {g : Group} {c : Chan} {s t : State} (row : isChannelDecode i = true)
    (h : channelStep g c s = .next t) : ExecCase i s t := by
  obtain ⟨p8, n8, hs, hp, hn, rfl⟩ := channelStep_next h
  exact .decoded g c p8 n8 row hs hp hn (by rw [chdec_eq, channelDelta])

theorem exec_cases {i : Instr} {s t : State} (h : exec i s = .next t) : ExecCase i s t := by
  have hold : ∀ tc, lut tc = .zero → ∀ g c, effectHold g c s = s.setCounter g c (addDelta (s.counter g c) (lut tc)) := by
    intro tc e g c; rw [e, effectHold_eq]
  have inc : ∀ tc, lut tc = .plus → ∀ g c, effectInc g c s = s.setCounter g c (addDelta (s.counter g c) (lut tc)) := by
    intro tc e g c; rw [e, effectInc_eq]
  have dec : ∀ tc, lut tc = .minus → ∀ g c, effectDec g c s = s.setCounter g c (addDelta (s.counter g c) (lut tc)) := by
    intro tc e g c; rw [e, effectDec_eq]
  cases i with
  | stay00 | amb00_11 | stay01 | amb01_10 | amb10_01 | stay10 | amb11_00 | stay11 =>
    exact .of_transition rfl (hold _ (by decide)) h
  | fwd00_10 | fwd01_00 | fwd10_11 | fwd11_01 => exact .of_transition rfl (inc _ (by decide)) h
  | bwd00_01 | bwd01_11 | bwd10_00 | bwd11_10 => exact .of_transition rfl (dec _ (by decide)) h
  | hold => exact .of_countEffect rfl (fun g c => effectHold_eq g c s) h
  | inc => exact .of_countEffect rfl (fun g c => effectInc_eq g c s) h
  | dec => exact .of_countEffect rfl (fun g c => effectDec_eq g c s) h
  | seedA => exact .seeded .a rfl (seedStep_next h).1 (seedStep_next h).2
  | seedB => exact .seeded .b rfl (seedStep_next h).1 (seedStep_next h).2
  | seedC => exact .seeded .c rfl (seedStep_next h).1 (seedStep_next h).2
  | seedD => exact .seeded .d rfl (seedStep_next h).1 (seedStep_next h).2
  | sampleA u => exact .whole .a u rfl h
  | sampleB u => exact .whole .b u rfl h
  | sampleC u => exact .whole .c u rfl h
  | sampleD u => exact .whole .d u rfl h
  | ustepRd g => exact .sampled g rfl (readStep_next h).1 (readStep_next h).2
  | ustepCh0 g | ustepCh1 g | ustepCh2 g | ustepCh3 g => exact .of_channelStep rfl h
  | ustepLatch g =>
    obtain ⟨n8, hs, hn, e⟩ := latchStep_next h
    exact .latched g n8 rfl hs hn e
  | rdctr g c => exact .read g c rfl (snapshot_next h)
  | reset => exact .reset rfl (resetQdec_next h)

/-! A SAMPLE performed as a whole. -/

/-- What one micro-step of SAMPLE.g can touch: the group's own counters and baseline, `NEW`, the position, and (RD) one
answer of ENV. -/
theorem ustep_frame {g : Group} {u : UStep} {s t : State} (h : ustep g u s = .next t) :
    s.seq = .run g u ∧ t.seq = nextSeq s.seq ∧
      (∀ k c, k ≠ g → t.counter k c = s.counter k c) ∧ (∀ k, k ≠ g → t.prevOf k = s.prevOf k) ∧
      t.pending = s.pending ∧ t.reads = s.reads ∧
      (u = .rd → t.draws = s.draws + 1 ∧ t.answers = s.answers.tail) ∧
      (u ≠ .rd → t.draws = s.draws ∧ t.answers = s.answers) := by
  rcases u with _ | c | _
  · obtain ⟨hs, rfl⟩ := readStep_next h
    exact ⟨hs, rfl, fun _ _ _ => rfl, fun _ _ => rfl, rfl, rfl, fun _ => ⟨rfl, rfl⟩, fun e => absurd rfl e⟩
  · obtain ⟨p8, n8, hs, hp, hn, rfl⟩ := channelStep_next h
    refine ⟨hs, rfl, fun k d hk => ?_, fun _ _ => rfl, rfl, rfl, fun e => (UStep.noConfusion e), fun _ => ⟨rfl, rfl⟩⟩
    rw [State.counter_advance, chdec_counter, if_neg (fun e => hk e.1.symm)]
  · obtain ⟨n8, hs, hn, rfl⟩ := latchStep_next h
    refine ⟨hs, rfl, fun _ _ _ => rfl, fun k hk => ?_, rfl, rfl, fun e => (UStep.noConfusion e), fun _ => ⟨rfl, rfl⟩⟩
    simp [State.prevOf_setPrev, Ne.symm hk]

/-- The same for the last part of a SAMPLE: it is performed at its own position and ends at the next group's RD, with the
baseline holding a value and `NEW` none. -/
theorem runUsteps_frame {g : Group} {u : UStep} {s t : State} (hu : u ≠ .rd)
    (h : runUsteps g (ustepsFrom u) s = .next t) :
    s.seq = .run g u ∧ t.seq = .run (nextGroup g) .rd ∧ t.new = none ∧ (∃ v, t.prevOf g = some v) ∧
      (∀ k c, k ≠ g → t.counter k c = s.counter k c) ∧ (∀ k, k ≠ g → t.prevOf k = s.prevOf k) ∧
      t.pending = s.pending ∧ t.reads = s.reads ∧ t.draws = s.draws ∧ t.answers = s.answers := by
  have latch : ∀ {s t : State}, runUsteps g [.latch] s = .next t →
      s.seq = .run g .latch ∧ t.seq = .run (nextGroup g) .rd ∧ t.new = none ∧ (∃ v, t.prevOf g = some v) ∧
      (∀ k c, k ≠ g → t.counter k c = s.counter k c) ∧ (∀ k, k ≠ g → t.prevOf k = s.prevOf k) ∧
      t.pending = s.pending ∧ t.reads = s.reads ∧ t.draws = s.draws ∧ t.answers = s.answers := by
    intro s t h
    obtain ⟨a, ha, e⟩ := andThen_eq_next.mp h
    obtain rfl := Host.Outcome.next.inj e
    have f := ustep_frame ha
    obtain ⟨n8, hs, hn, rfl⟩ := latchStep_next ha
    exact ⟨hs, by simp [hs], rfl, ⟨n8, by simp⟩, f.2.2.1, f.2.2.2.1, rfl, rfl, rfl, rfl⟩
  have chan : ∀ {c : Chan} {us : List UStep} {s t : State}, runUsteps g (.ch c :: us) s = .next t →
      ∃ a, ustep g (.ch c) s = .next a ∧ runUsteps g us a = .next t := by
    intro c us s t h
    exact andThen_eq_next.mp h
  have cons : ∀ {c : Chan} {us : List UStep} {v : UStep} {s t : State},
      (∀ {a b : State}, runUsteps g us a = .next b →
        a.seq = .run g v ∧ b.seq = .run (nextGroup g) .rd ∧ b.new = none ∧ (∃ v, b.prevOf g = some v) ∧
        (∀ k c, k ≠ g → b.counter k c = a.counter k c) ∧ (∀ k, k ≠ g → b.prevOf k = a.prevOf k) ∧
        b.pending = a.pending ∧ b.reads = a.reads ∧ b.draws = a.draws ∧ b.answers = a.answers) →
      runUsteps g (.ch c :: us) s = .next t →
        s.seq = .run g (.ch c) ∧ t.seq = .run (nextGroup g) .rd ∧ t.new = none ∧ (∃ v, t.prevOf g = some v) ∧
        (∀ k c, k ≠ g → t.counter k c = s.counter k c) ∧ (∀ k, k ≠ g → t.prevOf k = s.prevOf k) ∧
        t.pending = s.pending ∧ t.reads = s.reads ∧ t.draws = s.draws ∧ t.answers = s.answers := by
    intro c us v s t ih h
    obtain ⟨a, ha, hr⟩ := chan h
    obtain ⟨f1, -, f3, f4, f5, f6, -, f8⟩ := ustep_frame ha
    obtain ⟨-, i2, i3, i4, i5, i6, i7, i8, i9, i10⟩ := ih hr
    have f8 := f8 (by simp)
    exact ⟨f1, i2, i3, i4, fun k d hk => (i5 k d hk).trans (f3 k d hk), fun k hk => (i6 k hk).trans (f4 k hk),
      i7.trans f5, i8.trans f6, i9.trans f8.1, i10.trans f8.2⟩
  rcases u with _ | c | _
  · exact absurd rfl hu
  · have h3 : ∀ {s t : State}, runUsteps g [.ch 3, .latch] s = .next t → _ := fun h => cons latch h
    have h2 : ∀ {s t : State}, runUsteps g [.ch 2, .ch 3, .latch] s = .next t → _ := fun h => cons h3 h
    have h1 : ∀ {s t : State}, runUsteps g [.ch 1, .ch 2, .ch 3, .latch] s = .next t → _ := fun h => cons h2 h
    fin_cases c
    · exact cons h1 h
    · exact h1 h
    · exact h2 h
    · exact h3 h
  · exact latch h

/-- What a SAMPLE performed as a whole, from micro-step `u` on, can touch. -/
theorem sampleFrom_next {g : Group} {u : UStep} {s t : State} (h : sampleFrom g u s = .next t) :
    s.seq = .run g u ∧ t.seq = .run (nextGroup g) .rd ∧ t.new = none ∧ (∃ v, t.prevOf g = some v) ∧
      (∀ k c, k ≠ g → t.counter k c = s.counter k c) ∧ (∀ k, k ≠ g → t.prevOf k = s.prevOf k) ∧
      t.pending = s.pending ∧ t.reads = s.reads ∧
      (u = .rd → t.draws = s.draws + 1 ∧ t.answers = s.answers.tail) ∧
      (u ≠ .rd → t.draws = s.draws ∧ t.answers = s.answers) := by
  by_cases hu : u = .rd
  · subst hu
    obtain ⟨p8, hs, hp, rfl⟩ := sampleWhole_next h
    refine ⟨hs, rfl, rfl, ⟨s.readGroup, ?_⟩, fun k c hk => ?_, fun k hk => ?_, rfl, rfl, fun _ => ⟨rfl, rfl⟩,
      fun e => absurd rfl e⟩
    · exact State.prevOf_setPrev_same _ g _
    · show (grpdec g p8 s.readGroup s.answered).counter k c = _
      rw [grpdec_counter, if_neg (Ne.symm hk), State.counter_answered]
    · show ((grpdec g p8 s.readGroup s.answered).setPrev g s.readGroup).prevOf k = _
      rw [State.prevOf_setPrev, if_neg (Ne.symm hk), grpdec_prevOf, State.prevOf_answered]
  · have hr : runUsteps g (ustepsFrom u) s = .next t := by
      rcases u with _ | c | _
      · exact absurd rfl hu
      · exact h
      · exact h
    obtain ⟨a, b, c, d, e, f, i, j, k, l⟩ := runUsteps_frame hu hr
    exact ⟨a, b, c, d, e, f, i, j, fun e => absurd e hu, fun _ => ⟨k, l⟩⟩

end Sys2Proof.Machine
end

