-- ==== Sys2Proof/Laws/PerInstr.lean ====
section
/-! SUPPORT. The per-instruction family EncodeDecode: the word of an operation lies within its format and decodes to
that operation, with every operand. One lemma per constructor. -/

namespace Sys2Proof.Laws.EncodeDecode

def Statement (i : Instr) : Prop := i.wf = true ∧ (encode i).wf = true ∧ decode (encode i) = .ok i

theorem stay00 : Statement .stay00 := ⟨rfl, rfl, rfl⟩

theorem bwd00_01 : Statement .bwd00_01 := ⟨rfl, rfl, rfl⟩

theorem fwd00_10 : Statement .fwd00_10 := ⟨rfl, rfl, rfl⟩

theorem amb00_11 : Statement .amb00_11 := ⟨rfl, rfl, rfl⟩

theorem fwd01_00 : Statement .fwd01_00 := ⟨rfl, rfl, rfl⟩

theorem stay01 : Statement .stay01 := ⟨rfl, rfl, rfl⟩

theorem amb01_10 : Statement .amb01_10 := ⟨rfl, rfl, rfl⟩

theorem bwd01_11 : Statement .bwd01_11 := ⟨rfl, rfl, rfl⟩

theorem bwd10_00 : Statement .bwd10_00 := ⟨rfl, rfl, rfl⟩

theorem amb10_01 : Statement .amb10_01 := ⟨rfl, rfl, rfl⟩

theorem stay10 : Statement .stay10 := ⟨rfl, rfl, rfl⟩

theorem fwd10_11 : Statement .fwd10_11 := ⟨rfl, rfl, rfl⟩

theorem amb11_00 : Statement .amb11_00 := ⟨rfl, rfl, rfl⟩

theorem fwd11_01 : Statement .fwd11_01 := ⟨rfl, rfl, rfl⟩

theorem bwd11_10 : Statement .bwd11_10 := ⟨rfl, rfl, rfl⟩

theorem stay11 : Statement .stay11 := ⟨rfl, rfl, rfl⟩

theorem hold : Statement .hold := ⟨rfl, rfl, rfl⟩

theorem inc : Statement .inc := ⟨rfl, rfl, rfl⟩

theorem dec : Statement .dec := ⟨rfl, rfl, rfl⟩

theorem seedA : Statement .seedA := ⟨rfl, rfl, rfl⟩

theorem seedB : Statement .seedB := ⟨rfl, rfl, rfl⟩

theorem seedC : Statement .seedC := ⟨rfl, rfl, rfl⟩

theorem seedD : Statement .seedD := ⟨rfl, rfl, rfl⟩

theorem sampleA (u : UStep) : Statement (.sampleA u) := by
  rcases u with _ | c | _
  · exact ⟨rfl, rfl, rfl⟩
  · fin_cases c <;> exact ⟨rfl, rfl, rfl⟩
  · exact ⟨rfl, rfl, rfl⟩

theorem sampleB (u : UStep) : Statement (.sampleB u) := by
  rcases u with _ | c | _
  · exact ⟨rfl, rfl, rfl⟩
  · fin_cases c <;> exact ⟨rfl, rfl, rfl⟩
  · exact ⟨rfl, rfl, rfl⟩

theorem sampleC (u : UStep) : Statement (.sampleC u) := by
  rcases u with _ | c | _
  · exact ⟨rfl, rfl, rfl⟩
  · fin_cases c <;> exact ⟨rfl, rfl, rfl⟩
  · exact ⟨rfl, rfl, rfl⟩

theorem sampleD (u : UStep) : Statement (.sampleD u) := by
  rcases u with _ | c | _
  · exact ⟨rfl, rfl, rfl⟩
  · fin_cases c <;> exact ⟨rfl, rfl, rfl⟩
  · exact ⟨rfl, rfl, rfl⟩

theorem ustepRd (g : Group) : Statement (.ustepRd g) := by
  cases g <;> exact ⟨rfl, rfl, rfl⟩

theorem ustepCh0 (g : Group) : Statement (.ustepCh0 g) := by
  cases g <;> exact ⟨rfl, rfl, rfl⟩

theorem ustepCh1 (g : Group) : Statement (.ustepCh1 g) := by
  cases g <;> exact ⟨rfl, rfl, rfl⟩

theorem ustepCh2 (g : Group) : Statement (.ustepCh2 g) := by
  cases g <;> exact ⟨rfl, rfl, rfl⟩

theorem ustepCh3 (g : Group) : Statement (.ustepCh3 g) := by
  cases g <;> exact ⟨rfl, rfl, rfl⟩

theorem ustepLatch (g : Group) : Statement (.ustepLatch g) := by
  cases g <;> exact ⟨rfl, rfl, rfl⟩

theorem rdctr (g : Group) (c : Chan) : Statement (.rdctr g c) := by
  cases g <;> fin_cases c <;> exact ⟨rfl, rfl, rfl⟩

theorem reset : Statement .reset := ⟨rfl, rfl, rfl⟩

end Sys2Proof.Laws.EncodeDecode
end

