-- ==== Sys2Proof/Laws/Script.lean ====
section
/-! SUPPORT. Loading a script (R59), and the premises of R137: the small lemmas of their definitions. -/

namespace Sys2Proof.Machine

@[simp] theorem scriptEnd_nil (q : Seq) : scriptEnd q [] = some q := rfl

/-- A script runs on from where its first line, well formed at the position, leads. -/
theorem scriptEnd_cons {q q' : Seq} {l : Line} (rest : List Line) (wf : l.wf = true) (next : lineNext q l = some q') :
    scriptEnd q (l :: rest) = scriptEnd q' rest := by
  simp [scriptEnd, wf, next]

/-- A line that leads on was well formed. -/
theorem scriptEnd_cons_some {q e : Seq} {l : Line} {rest : List Line} (h : scriptEnd q (l :: rest) = some e) :
    l.wf = true ∧ ∃ q', lineNext q l = some q' ∧ scriptEnd q' rest = some e := by
  simp only [scriptEnd] at h
  split at h
  · rename_i wf
    split at h
    · exact ⟨wf, _, ‹_›, h⟩
    · cases h
  · cases h

/-- All that loading does: the script's events and answers come first, and the script was well formed at the position. -/
theorem load_some {s l : State} {script : List Line} (h : s.load script = some l) :
    (∃ q, scriptEnd s.seq script = some q) ∧
      l = { s with
        pending := script.flatMap lineRequests ++ s.pending
        answers := script.flatMap lineAnswers ++ s.answers } := by
  simp only [State.load] at h
  split at h
  · exact ⟨⟨_, ‹_›⟩, (Option.some.inj h).symm⟩
  · cases h

/-- The premise P_RANGE keeps a sum within the range of a counter. -/
theorem PRange.inRange {i : Int} (h : PRange i) : InRange i := ⟨h.1.le, h.2⟩

/-- RESET leaves the reset state of QDEC and nothing pending changes: what P_RESET says of a state. -/
theorem PReset.fields {s : State} (h : PReset s) :
    s.ctr = Vector.replicate 16 0 ∧ s.prev = Vector.replicate 4 none ∧ s.new = none ∧ s.seq = .seed .a := by
  obtain ⟨before, h⟩ := h
  rw [resetQdec_next h]
  exact ⟨rfl, rfl, rfl, rfl⟩

/-- Where a step answers a next state, its word decoded and the operation ran. -/
theorem step_next {s t : State} (h : step s = .next t) : ∃ i, decode s.fetch.1 = .ok i ∧ exec i s.fetch.2 = .next t := by
  simp only [step] at h
  split at h
  · exact ⟨_, ‹_›, h⟩
  · cases h

/-- No operation touches the pending events. -/
theorem exec_pending {i : Instr} {s t : State} (h : exec i s = .next t) : t.pending = s.pending := by
  cases exec_cases h with
  | decoded _ _ _ _ _ _ _ _ eq => rw [eq]; rfl
  | seeded _ _ _ eq => rw [eq]; rfl
  | sampled _ _ _ eq => rw [eq]; rfl
  | latched _ _ _ _ _ eq => rw [eq]; rfl
  | whole _ _ _ eq => exact (sampleFrom_next eq).2.2.2.2.2.2.1
  | read _ _ _ eq => rw [eq]
  | reset _ eq => rw [eq]

/-- READER's record changes only by a snapshot, of the word the counter holds. -/
theorem exec_reads {i : Instr} {s t : State} (h : exec i s = .next t) :
    t.reads = s.reads ∨ ∃ g c, i = .rdctr g c ∧ t.reads = ⟨g, c, s.counter g c⟩ :: s.reads := by
  cases exec_cases h with
  | decoded _ _ _ _ _ _ _ _ eq => rw [eq]; exact .inl rfl
  | seeded _ _ _ eq => rw [eq]; exact .inl rfl
  | sampled _ _ _ eq => rw [eq]; exact .inl rfl
  | latched _ _ _ _ _ eq => rw [eq]; exact .inl rfl
  | whole _ _ _ eq => exact .inl (sampleFrom_next eq).2.2.2.2.2.2.2.1
  | read g c row eq => rw [eq]; exact .inr ⟨g, c, row, rfl⟩
  | reset _ eq => rw [eq]; exact .inl rfl

end Sys2Proof.Machine
end

