-- ==== Sys2Proof/Tests/Slice0.lean ====
section
/-! SUPPORT. Tests: expected results from the spec's own vectors (95_test_vectors.md) and encodings; the WellFormed smoke
tests; and for each statement with hypotheses a witness that they can be met together. -/

namespace Sys2Proof.Tests

open Sys2Proof.Machine

/-! ## Helpers -/

/-- The state of a SAMPLE.g in progress: every baseline `p8`, sample `n8`, counters as after reset. -/
def inSample (g : Group) (u : UStep) (p8 n8 : Raw) : State :=
  { State.reset with seq := .run g u, prev := Vector.replicate 4 (some p8), new := some n8 }

/-- The same with one counter preset. -/
def inSampleWith (g : Group) (c : Chan) (w : CtrWord) (p8 n8 : Raw) : State :=
  (inSample g (.ch c) p8 n8).setCounter g c w

/-- An iteration under way: SAMPLE.g is about to read, ENV will answer `vs`. -/
def atRead (g : Group) (p8 : Raw) (vs : List Raw) : State :=
  { State.reset with seq := .run g .rd, prev := Vector.replicate 4 (some p8), answers := vs }

def counterAfter (r : Result) (g : Group) (c : Chan) : Option CtrWord :=
  match r with
  | .next t => some (t.counter g c)
  | .fault _ => none
  | .refused _ => none

def seqAfter (r : Result) : Option Seq :=
  match r with
  | .next t => some t.seq
  | .fault _ => none
  | .refused _ => none

def prevAfter (r : Result) (g : Group) : Option Raw :=
  match r with
  | .next t => t.prevOf g
  | .fault _ => none
  | .refused _ => none

def isNext (r : Result) : Bool :=
  match r with
  | .next _ => true
  | .fault _ => false
  | .refused _ => false

def isNotSelected (r : Result) : Bool :=
  match r with
  | .refused .notSelected => true
  | .refused _ => false
  | .next _ => false
  | .fault _ => false

/-! ## Decoding: the words of opcode_table.json, written out -/

theorem test_decode_transition_codes :
    decode ⟨.tc, 0b0000⟩ = .ok .stay00 ∧ decode ⟨.tc, 0b0001⟩ = .ok .bwd00_01 ∧
    decode ⟨.tc, 0b0010⟩ = .ok .fwd00_10 ∧ decode ⟨.tc, 0b0011⟩ = .ok .amb00_11 ∧
    decode ⟨.tc, 0b0100⟩ = .ok .fwd01_00 ∧ decode ⟨.tc, 0b0101⟩ = .ok .stay01 ∧
    decode ⟨.tc, 0b0110⟩ = .ok .amb01_10 ∧ decode ⟨.tc, 0b0111⟩ = .ok .bwd01_11 ∧
    decode ⟨.tc, 0b1000⟩ = .ok .bwd10_00 ∧ decode ⟨.tc, 0b1001⟩ = .ok .amb10_01 ∧
    decode ⟨.tc, 0b1010⟩ = .ok .stay10 ∧ decode ⟨.tc, 0b1011⟩ = .ok .fwd10_11 ∧
    decode ⟨.tc, 0b1100⟩ = .ok .amb11_00 ∧ decode ⟨.tc, 0b1101⟩ = .ok .fwd11_01 ∧
    decode ⟨.tc, 0b1110⟩ = .ok .bwd11_10 ∧ decode ⟨.tc, 0b1111⟩ = .ok .stay11 := by
  refine ⟨?_, ?_, ?_, ?_, ?_, ?_, ?_, ?_, ?_, ?_, ?_, ?_, ?_, ?_, ?_, ?_⟩ <;> rfl

theorem test_decode_counter_effects :
    decode ⟨.delta, 0b00⟩ = .ok .hold ∧ decode ⟨.delta, 0b01⟩ = .ok .inc ∧ decode ⟨.delta, 0b11⟩ = .ok .dec := ⟨rfl, rfl, rfl⟩

theorem test_decode_operations :
    decode ⟨.seqOp, 0b000000⟩ = .ok .seedA ∧ decode ⟨.seqOp, 0b001000⟩ = .ok .seedB ∧
    decode ⟨.seqOp, 0b010000⟩ = .ok .seedC ∧ decode ⟨.seqOp, 0b011000⟩ = .ok .seedD ∧
    decode ⟨.seqOp, 0b100000⟩ = .ok (.sampleA .rd) ∧ decode ⟨.seqOp, 0b101001⟩ = .ok (.sampleB (.ch 0)) ∧
    decode ⟨.seqOp, 0b110100⟩ = .ok (.sampleC (.ch 3)) ∧ decode ⟨.seqOp, 0b111101⟩ = .ok (.sampleD .latch) :=
  ⟨rfl, rfl, rfl, rfl, rfl, rfl, rfl, rfl⟩

theorem test_decode_micro_steps :
    decode ⟨.seqUstep, 0b100000⟩ = .ok (.ustepRd .a) ∧ decode ⟨.seqUstep, 0b101001⟩ = .ok (.ustepCh0 .b) ∧
    decode ⟨.seqUstep, 0b110010⟩ = .ok (.ustepCh1 .c) ∧ decode ⟨.seqUstep, 0b111011⟩ = .ok (.ustepCh2 .d) ∧
    decode ⟨.seqUstep, 0b100100⟩ = .ok (.ustepCh3 .a) ∧ decode ⟨.seqUstep, 0b101101⟩ = .ok (.ustepLatch .b) :=
  ⟨rfl, rfl, rfl, rfl, rfl, rfl⟩

/-- RD5: the counter addresses of `RDCTR A,0`, `B,2`, `C,1`, `D,3`; and RESET. -/
theorem test_decode_system_operations :
    decode ⟨.ctrAddr, 0b0000⟩ = .ok (.rdctr .a 0) ∧ decode ⟨.ctrAddr, 0b0110⟩ = .ok (.rdctr .b 2) ∧
    decode ⟨.ctrAddr, 0b1001⟩ = .ok (.rdctr .c 1) ∧ decode ⟨.ctrAddr, 0b1111⟩ = .ok (.rdctr .d 3) ∧
    decode ⟨.rst, 0b1⟩ = .ok .reset := ⟨rfl, rfl, rfl, rfl, rfl⟩

/-- Q1: reference encodings of positions after reset. -/
theorem test_position_words :
    (Seq.seed .b).word = 0b001000 ∧ (Seq.run .a .rd).word = 0b100000 ∧ (Seq.run .a (.ch 3)).word = 0b100100 ∧
    (Seq.run .c .latch).word = 0b110101 ∧ State.reset.seq.word = 0b000000 := by decide

/-! ## WellFormed: an ill-formed term for each check (U14, N5, N6) -/

theorem test_word_too_wide_is_refused :
    Request.wf ⟨.tc, 0x10⟩ = false ∧ Request.wf ⟨.delta, 0x04⟩ = false ∧ Request.wf ⟨.seqOp, 0x40⟩ = false ∧
    Request.wf ⟨.seqUstep, 0x60⟩ = false ∧ Request.wf ⟨.ctrAddr, 0x10⟩ = false ∧ Request.wf ⟨.rst, 0x02⟩ = false := by decide

theorem test_unused_pattern_is_refused :
    Request.wf ⟨.delta, 0b10⟩ = false ∧ Request.wf ⟨.seqOp, 0b100110⟩ = false ∧ Request.wf ⟨.seqOp, 0b000001⟩ = false ∧
    Request.wf ⟨.seqUstep, 0b100111⟩ = false ∧ Request.wf ⟨.seqUstep, 0b000000⟩ = false ∧ Request.wf ⟨.rst, 0b0⟩ = false := by
  decide

theorem test_unused_pattern_is_named :
    decode ⟨.delta, 0b10⟩ = .error .deltaNeverProduced ∧ decode ⟨.seqOp, 0b100110⟩ = .error .ustepNeverOccurs ∧
    decode ⟨.seqOp, 0b000001⟩ = .error .seedHasOneUstep ∧ decode ⟨.seqUstep, 0b000000⟩ = .error .notARunPosition ∧
    decode ⟨.rst, 0b0⟩ = .error .resetNotAsserted ∧ decode ⟨.tc, 0x10⟩ = .error .wordTooWide := ⟨rfl, rfl, rfl, rfl, rfl, rfl⟩

/-- N5, N6, and a counter literal of more than 32 bits; a block with seven micro-steps, and with one after a RESET. -/
theorem test_ill_formed_lines_are_refused :
    Line.wf (.rdctr 'E' 0 0) = false ∧ Line.wf (.rdctr 'A' 4 0) = false ∧ Line.wf (.sample 'A' 0x100) = false ∧
    Line.wf (.seed 'x' 0) = false ∧ Line.wf (.rdctr 'A' 0 4294967296) = false ∧
    Line.wf (.sampleSteps 'A' 0 (List.replicate 7 .ustep)) = false ∧
    Line.wf (.sampleSteps 'A' 0 [.ustep, .reset, .ustep]) = false ∧ Line.wf (.sampleSteps 'B' 5 [.rdctr 'A' 0 0]) = false ∧
    Line.wf (.sampleSteps 'A' 0 (List.replicate 5 .ustep)) = false ∧
    Line.wf (.sampleSteps 'A' 0 [.rdctr 'A' 9 0]) = false := by decide

theorem test_nearest_well_formed_lines_are_accepted :
    Line.wf (.rdctr 'D' 3 (-1)) = true ∧ Line.wf (.sample 'A' 0xFF) = true ∧
    Line.wf (.sampleSteps 'A' 3 [.ustep, .ustep, .reset, .rdctr 'A' 0 0]) = true ∧
    Line.wf (.sampleSteps 'D' 0 (.rdctr 'A' 0 0 :: List.replicate 6 .ustep)) = true := by decide

/-- A script with an ill-formed line is not loaded (N5); nor is one that names an operation the position does not select, in
the block form too, whatever the block performs (R59, N1 to N4). -/
theorem test_ill_formed_script_is_not_loaded :
    (State.reset.load [.reset, .rdctr 'E' 0 0]).isNone = true ∧ (State.reset.load [.sample 'A' 3]).isNone = true ∧
    (State.reset.load [.sampleSteps 'A' 3 [.reset]]).isNone = true ∧
    ((atRead .a 0 []).load [.sampleSteps 'B' 5 [.reset]]).isNone = true ∧
    ((atRead .a 0 []).load [.seed 'A' 0]).isNone = true ∧ ((atRead .a 0 []).load [.sampleSteps 'A' 5 [.reset]]).isSome = true := by
  decide

/-- `SAMPLE A, 0x02` takes its own byte, whatever ENV had queued (R59). -/
theorem test_loaded_line_reads_its_own_byte :
    (match (atRead .a 0 [0xFF]).load [.sample 'A' 0x02] with
      | some l => (prevAfter (step l) .a, counterAfter (step l) .a 0)
      | none => (none, none)) = (some 0x02, some 1) := by decide

/-! ## Transition codes and counter effects: the vectors V1 to V12 -/

/-- V1 (S7) and V2 (S6): from 0 up and down. -/
theorem test_forward_and_backward_from_zero :
    counterAfter (exec .fwd00_10 (inSampleWith .b 1 0 0x00 0x08)) .b 1 = some 0x00000001 ∧
    counterAfter (exec .bwd00_01 (inSampleWith .b 1 0 0x00 0x04)) .b 1 = some 0xFFFFFFFF := by decide

/-- V3, V6: crossing zero upward; two byte lanes change. -/
theorem test_forward_carries :
    counterAfter (exec .fwd01_00 (inSampleWith .a 0 0xFFFFFFFF 0x01 0x00)) .a 0 = some 0x00000000 ∧
    counterAfter (exec .fwd11_01 (inSampleWith .d 3 0x000000FF 0xC0 0x40)) .d 3 = some 0x00000100 := by decide

/-- V4, V5: the wrap at either end. -/
theorem test_wrap_at_the_ends :
    counterAfter (exec .fwd10_11 (inSampleWith .c 2 0x7FFFFFFF 0x20 0x30)) .c 2 = some 0x80000000 ∧
    counterAfter (exec .bwd11_10 (inSampleWith .c 2 0x80000000 0x30 0x20)) .c 2 = some 0x7FFFFFFF := by decide

/-- V7, V11. -/
theorem test_backward_borrows :
    counterAfter (exec .bwd01_11 (inSampleWith .a 3 0x00010000 0x40 0xC0)) .a 3 = some 0x0000FFFF ∧
    counterAfter (exec .bwd10_00 (inSampleWith .a 3 0x7FFFFFFF 0x80 0x00)) .a 3 = some 0x7FFFFFFE := by decide

/-- V8, V10 and the reversals: the AMB codes hold. -/
theorem test_ambiguous_codes_hold :
    counterAfter (exec .amb00_11 (inSampleWith .a 0 0x12345678 0x00 0x03)) .a 0 = some 0x12345678 ∧
    counterAfter (exec .amb01_10 (inSampleWith .a 0 0x80000000 0x01 0x02)) .a 0 = some 0x80000000 ∧
    counterAfter (exec .amb10_01 (inSampleWith .a 0 9 0x02 0x01)) .a 0 = some 9 ∧
    counterAfter (exec .amb11_00 (inSampleWith .a 0 5 0x03 0x00)) .a 0 = some 5 := by decide

/-- V9 and the examples of R63, R68, R78: the STAY codes hold. -/
theorem test_stay_codes_hold :
    counterAfter (exec .stay10 (inSampleWith .d 0 0x12345678 0x02 0x02)) .d 0 = some 0x12345678 ∧
    counterAfter (exec .stay00 (inSampleWith .d 0 7 0x00 0x00)) .d 0 = some 7 ∧
    counterAfter (exec .stay01 (inSampleWith .d 0 0xFFFFFFFE 0x01 0x01)) .d 0 = some 0xFFFFFFFE ∧
    counterAfter (exec .stay11 (inSampleWith .d 0 0xFFFFFFF9 0x03 0x03)) .d 0 = some 0xFFFFFFF9 := by decide

/-- R86 to R88: INC 41 to 42, DEC 0 to -1, HOLD -3. -/
theorem test_counter_effects :
    counterAfter (exec .inc (inSampleWith .a 1 41 0x00 0x08)) .a 1 = some 42 ∧
    counterAfter (exec .dec (inSampleWith .a 1 0 0x00 0x04)) .a 1 = some 0xFFFFFFFF ∧
    counterAfter (exec .hold (inSampleWith .a 1 0xFFFFFFFD 0x00 0x0C)) .a 1 = some 0xFFFFFFFD := by decide

/-- A code the operands do not assemble to, and any code away from a channel position, is not selected (R59). -/
theorem test_unselected_code_is_refused :
    isNotSelected (exec .fwd00_10 (inSampleWith .a 0 0 0x00 0x01)) = true ∧
    isNotSelected (exec .inc (inSample .a .latch 0x00 0x02)) = true := by decide

/-- R56: the group transition words of G7 and G16. -/
theorem test_group_transition_word :
    groupTransWord 0xE4 0xB1 = 0xEB41 ∧ groupTransWord 0x27 0x8D = 0x287D := by decide

/-- R33: byte lanes. -/
theorem test_byte_lanes : byteLane 0x12345678 0 = 0x78 ∧ byteLane 0x12345678 3 = 0x12 := by decide

/-! ## The Sampling Loop -/

/-- R98: `SEED B, 0x1B`. -/
theorem test_seed_stores_sample :
    prevAfter (exec .seedB { State.reset with seq := .seed .b, answers := [0x1B] }) .b = some 0x1B ∧
    seqAfter (exec .seedB { State.reset with seq := .seed .b, answers := [0x1B] }) = some (.seed .c) := by decide

/-- R97: after SEED.D the run phase begins; SEED.A, SEED.C at their positions. -/
theorem test_seed_advances :
    seqAfter (exec .seedD { State.reset with seq := .seed .d }) = some (.run .a .rd) ∧
    seqAfter (exec .seedA State.reset) = some (.seed .b) ∧
    seqAfter (exec .seedC { State.reset with seq := .seed .c }) = some (.seed .d) := by decide

/-- N1 to N4. -/
theorem test_wrong_operation_is_refused :
    isNotSelected (exec (.sampleA .rd) State.reset) = true ∧ isNotSelected (exec .seedB State.reset) = true ∧
    isNotSelected (exec (.sampleB .rd) (atRead .a 0 [1])) = true ∧ isNotSelected (exec .seedA (atRead .a 0 [1])) = true := by
  decide

/-- G7: E4 to B1 counts -1 +1 +1 -1. -/
theorem test_sample_G7 :
    (let r := exec (.sampleA .rd) (atRead .a 0xE4 [0xB1])
     [counterAfter r .a 0, counterAfter r .a 1, counterAfter r .a 2, counterAfter r .a 3, counterAfter r .b 0]) =
      [some 0xFFFFFFFF, some 1, some 1, some 0xFFFFFFFF, some 0] := by decide

/-- G8 on group D: E4 to 4E counts +1 -1 -1 +1, and the next position is (RUN, A, RD). -/
theorem test_sample_G8 :
    (let r := exec (.sampleD .rd) (atRead .d 0xE4 [0x4E])
     [counterAfter r .d 0, counterAfter r .d 1, counterAfter r .d 2, counterAfter r .d 3]) =
      [some 1, some 0xFFFFFFFF, some 0xFFFFFFFF, some 1] ∧
    seqAfter (exec (.sampleD .rd) (atRead .d 0xE4 [0x4E])) = some (.run .a .rd) := by decide

/-- Q5: the decoded sample is the kept sample; G6: all AMB at once. -/
theorem test_sample_keeps_what_it_decoded :
    prevAfter (exec (.sampleB .rd) (atRead .b 0x00 [0x02, 0x77])) .b = some 0x02 ∧
    counterAfter (exec (.sampleC .rd) (atRead .c 0xE4 [0x1B])) .c 2 = some 0 := by decide

/-- Log entry 10: a SAMPLE of G7 carried on from CH2 decodes channels 2 and 3 only. -/
theorem test_sample_in_progress :
    (let r := exec (.sampleA (.ch 2)) (inSample .a (.ch 2) 0xE4 0xB1)
     [counterAfter r .a 0, counterAfter r .a 1, counterAfter r .a 2, counterAfter r .a 3]) =
      [some 0, some 0, some 1, some 0xFFFFFFFF] ∧
    prevAfter (exec (.sampleA (.ch 2)) (inSample .a (.ch 2) 0xE4 0xB1)) .a = some 0xB1 := by decide

/-- P4: RD takes the sample; the counters move one channel at a time, the baseline only at LATCH. -/
theorem test_micro_steps_of_P4 :
    seqAfter (exec (.ustepRd .a) (atRead .a 0x00 [0xAA])) = some (.run .a (.ch 0)) ∧
    counterAfter (exec (.ustepCh0 .a) (inSample .a (.ch 0) 0x00 0xAA)) .a 0 = some 1 ∧
    counterAfter (exec (.ustepCh0 .a) (inSample .a (.ch 0) 0x00 0xAA)) .a 1 = some 0 ∧
    counterAfter (exec (.ustepCh1 .a) (inSample .a (.ch 1) 0x00 0xAA)) .a 1 = some 1 ∧
    counterAfter (exec (.ustepCh2 .a) (inSample .a (.ch 2) 0x00 0xAA)) .a 2 = some 1 ∧
    counterAfter (exec (.ustepCh3 .a) (inSample .a (.ch 3) 0x00 0xAA)) .a 3 = some 1 ∧
    prevAfter (exec (.ustepCh3 .a) (inSample .a (.ch 3) 0x00 0xAA)) .a = some 0x00 ∧
    prevAfter (exec (.ustepLatch .a) (inSample .a .latch 0x00 0xAA)) .a = some 0xAA ∧
    seqAfter (exec (.ustepLatch .a) (inSample .a .latch 0x00 0xAA)) = some (.run .b .rd) := by decide

/-! ## READER and RESET -/

/-- R107: the snapshot is the whole word of the addressed counter. -/
theorem test_snapshot :
    (match exec (.rdctr .b 2) (inSampleWith .b 2 0xFFFFFFFF 0 0) with
     | .next t => t.reads
     | .fault _ => []
     | .refused _ => []) = [⟨.b, 2, 0xFFFFFFFF⟩] := by decide

/-- P7: a RESET between CH0 and CH1 zeroes the counter just updated and empties `PREV`. -/
theorem test_reset_inside_a_sample :
    counterAfter (exec .reset (inSampleWith .a 1 2 0x02 0x03)) .a 1 = some 0 ∧
    prevAfter (exec .reset (inSampleWith .a 1 2 0x02 0x03)) .a = none ∧
    seqAfter (exec .reset (inSampleWith .a 1 2 0x02 0x03)) = some (.seed .a) := by decide

/-! ## Steps -/

/-- From reset with nothing pending the step is SEED.A. -/
theorem test_first_step_is_seedA : seqAfter (step State.reset) = some (.seed .b) := by decide

/-- A bare table word: a byte below 16 is a transition code, another one a position (log entry 1). -/
theorem test_bare_table_words :
    decodeTableWord 8 0x0D = some .fwd11_01 ∧ decodeTableWord 8 0x18 = some .seedD ∧
    decodeTableWord 8 0x30 = some (.sampleC .rd) ∧ decodeTableWord 8 0x25 = some (.ustepLatch .a) ∧
    decodeTableWord 2 3 = some .dec ∧ decodeTableWord 1 1 = some .reset ∧ decodeTableWord 8 0x26 = none := by decide

/-- Each of the 27 bytes that is some row's word runs as the very next step after reset. -/
theorem test_bare_table_words_run :
    (List.range 16 ++ [0x10, 0x18, 0x20, 0x28, 0x30, 0x38, 0x21, 0x22, 0x23, 0x24, 0x25]).all
      (fun w => isNext (step (State.reset.withFetchWord 8 w))) = true := by decide

/-- A word that names nothing is refused, not run. -/
theorem test_illegal_word_is_refused :
    isNext (step (State.reset.withFetchWord 8 0x26)) = false ∧ isNext (step (State.reset.withFetchWord 8 0x1FF)) = false := by
  decide

/-! ## Witnesses: the hypotheses of the statements can be met -/

theorem witness_StepsAreDecodedModuloFour : pairAt (pos 0b01 + -3) = 0b00 := by decide

theorem witness_InRange_ends : InRange 2147483647 ∧ InRange (-2147483648) := by
  constructor <;> constructor <;> decide

/-- CounterWrapsAtTheEnds: each clause at the end it speaks of. -/
theorem witness_CounterWrapsAtTheEnds :
    val 0x7FFFFFFF = 2147483647 ∧ val 0x80000000 = -2147483648 ∧ InRange (val 0x7FFFFFFE + deltaVal .plus) ∧
    InRange (val 0x80000001 + deltaVal .minus) := by
  refine ⟨by decide, by decide, ?_, ?_⟩ <;> constructor <;> decide

/-- SnapshotDifferenceSurvivesWrap: a difference taken across the wrap. -/
theorem witness_SnapshotDifferenceSurvivesWrap : InRange (2147483650 - 2147483640) := by constructor <;> decide

theorem witness_DecodeInvertsEncode : decode ⟨.seqOp, 0b111101⟩ = .ok (.sampleD .latch) := rfl

/-- ForwardCodesCountUp, BackwardCodesCountDown, StayAndAmbiguousCodesHold: each row's operands, at the first channel of group
A and at the last of group D. -/
theorem witness_codes_first_channel :
    (inSample .a (.ch 0) 0x00 0x02).seq = .run .a (.ch 0) ∧ (inSample .a (.ch 0) 0x00 0x02).prevOf .a = some 0x00 ∧
    (inSample .a (.ch 0) 0x00 0x02).new = some 0x02 ∧
    (fwdRows ++ bwdRows ++ stayRows ++ ambRows).all (fun row =>
      tcOf (pairOf ((tcPrev row.2).zeroExtend 8) 0) (pairOf ((tcCur row.2).zeroExtend 8) 0) == row.2) = true := by decide

theorem witness_codes_last_channel :
    (inSample .d (.ch 3) 0xC0 0x40).seq = .run .d (.ch 3) ∧ (inSample .d (.ch 3) 0xC0 0x40).prevOf .d = some 0xC0 ∧
    (inSample .d (.ch 3) 0xC0 0x40).new = some 0x40 ∧
    (fwdRows ++ bwdRows ++ stayRows ++ ambRows).all (fun row =>
      tcOf (pairOf ((tcPrev row.2).zeroExtend 8 <<< 6) 3) (pairOf ((tcCur row.2).zeroExtend 8 <<< 6) 3) == row.2) = true := by
  decide

/-- EffectsAddTheirDelta, each clause; ChannelMicroStepAddsTheTableEntry. -/
theorem witness_EffectsAddTheirDelta :
    (inSample .c (.ch 1) 0x00 0x08).seq = .run .c (.ch 1) ∧ (inSample .c (.ch 1) 0x00 0x08).prevOf .c = some 0x00 ∧
    (inSample .c (.ch 1) 0x00 0x08).new = some 0x08 ∧
    lut (tcOf (pairOf 0x00 1) (pairOf 0x08 1)) = .plus ∧ lut (tcOf (pairOf 0x00 1) (pairOf 0x04 1)) = .minus ∧
    lut (tcOf (pairOf 0x00 1) (pairOf 0x0C 1)) = .zero := by decide

/-- SeedStoresTheBaseline: the first and the last group. -/
theorem witness_SeedStoresTheBaseline :
    State.reset.seq = .seed .a ∧ (⟨State.reset.ctr, State.reset.prev, .seed .d, none, [], [7], 0, []⟩ : State).seq = .seed .d ∧
    isNext (exec (seedOf .a) State.reset) = true := by decide

/-- MicroStepsReadDecodeAndLatch, each clause. -/
theorem witness_MicroStepsReadDecodeAndLatch :
    (atRead .d 0x00 [1]).seq = .run .d .rd ∧
    ([0, 1, 2, 3] : List Chan).all (fun c => (inSample .d (.ch c) 1 2).seq == .run .d (.ch c)) = true ∧
    (inSample .d (.ch 3) 1 2).prevOf .d = some 1 ∧ (inSample .d (.ch 3) 1 2).new = some 2 ∧
    (inSample .d .latch 1 2).seq = .run .d .latch ∧ (inSample .d .latch 1 2).new = some 2 := by decide

theorem witness_NewHoldsNoValueAfterLatch :
    isNext (exec (.ustepLatch .b) (inSample .b .latch 1 2)) = true ∧
    isNext (exec (sampleOf .b .rd) (atRead .b 1 [2])) = true ∧
    isNext (exec (sampleOf .b (.ch 3)) (inSample .b (.ch 3) 1 2)) = true := by decide

/-- SampleDecodesThenKeepsTheSample, SixMicroStepsAreTheSample, CountersChangeOneChannelAtATime; the sample is queued, or drawn. -/
theorem witness_SampleDecodesThenKeepsTheSample :
    (atRead .a 0xE4 [0xB1]).seq = .run .a .rd ∧ (atRead .a 0xE4 [0xB1]).prevOf .a = some 0xE4 ∧
    (atRead .a 0xE4 [0xB1]).readGroup = 0xB1 ∧ (atRead .a 0xE4 []).pending = [] ∧
    ([3, 2, 1, 0] : List Chan).Perm [0, 1, 2, 3] := by decide

theorem witness_SampleInProgressIsFinished :
    (UStep.ch 0 ≠ .rd ∧ (inSample .a (.ch 0) 1 2).seq = .run .a (.ch 0) ∧ (inSample .a (.ch 0) 1 2).prevOf .a = some 1 ∧
      (inSample .a (.ch 0) 1 2).new = some 2) ∧
    (UStep.latch ≠ .rd ∧ (inSample .d .latch 1 2).seq = .run .d .latch ∧ (inSample .d .latch 1 2).prevOf .d = some 1 ∧
      (inSample .d .latch 1 2).new = some 2) := by decide

/-- SampleCornerCases: each of the four samples. -/
theorem witness_SampleCornerCases :
    (atRead .b 0x39 [0x39]).readGroup = 0x39 ∧ (atRead .b 0x39 [0xC6]).readGroup = ~~~(0x39 : Raw) ∧
    (atRead .b 0x39 [0x6C]).readGroup = 0x39 ^^^ 0x55 ∧ (atRead .b 0x39 [0x93]).readGroup = 0x39 ^^^ 0xAA ∧
    (atRead .b 0x39 [0x39]).seq = .run .b .rd ∧ (atRead .b 0x39 [0x39]).prevOf .b = some 0x39 := by decide

/-- ChannelDependsOnItsOwnPairsOnly: baselines and samples that agree in channel 1 only. -/
theorem witness_ChannelDependsOnItsOwnPairsOnly :
    pairOf 0x04 1 = pairOf 0xF7 1 ∧ pairOf (atRead .a 0x04 [0x08]).readGroup 1 = pairOf (atRead .a 0xF7 [0x3B]).readGroup 1 ∧
    (atRead .a 0x04 [0x08]).counter .a 1 = (atRead .a 0xF7 [0x3B]).counter .a 1 ∧
    isNext (exec (sampleOf .a .rd) (atRead .a 0x04 [0x08])) = true ∧
    isNext (exec (sampleOf .a .rd) (atRead .a 0xF7 [0x3B])) = true ∧
    isNext (exec (ustepOf .a (.ch 1)) (inSample .a (.ch 1) 1 2)) = true := by decide

theorem witness_ResetLeavesTheOtherAgents : ∃ t, exec .reset (inSample .a .latch 1 2) = .next t := ⟨_, rfl⟩

theorem witness_ResetMayFallAnywhere :
    ({ inSample .a (.ch 1) 2 3 with pending := [encode .reset] } : State).pending = encode .reset :: [] := rfl

/-- StepRunsThePendingEvent, each clause. -/
theorem witness_StepRunsThePendingEvent :
    ({ State.reset with pending := [⟨.ctrAddr, 5⟩] } : State).pending = ⟨.ctrAddr, 5⟩ :: [] ∧
    decode ⟨.ctrAddr, 5⟩ = .ok (.rdctr .b 1) ∧ decode ⟨.delta, 2⟩ = .error .deltaNeverProduced := ⟨rfl, rfl, rfl⟩

/-- StepRunsTheSelectedMicroStep, each clause; ChannelStepIsItsTransitionCode. -/
theorem witness_StepRunsTheSelectedMicroStep :
    (State.reset.pending = [] ∧ State.reset.seq = .seed .a) ∧
    ((inSample .d (.ch 3) 1 2).pending = [] ∧ (inSample .d (.ch 3) 1 2).seq = .run .d (.ch 3) ∧
      (inSample .d (.ch 3) 1 2).prevOf .d = some 1 ∧ (inSample .d (.ch 3) 1 2).new = some 2) := by decide

/-- UnselectedOperationsAreRefused, UnselectedCodesAreRefused. -/
theorem witness_unselected :
    State.reset.seq ≠ .seed .d ∧ State.reset.seq ≠ .run .a .rd ∧ (∀ g c, State.reset.seq ≠ .run g (.ch c)) ∧
    tcOf (pairOf 0x00 0) (pairOf 0x01 0) ≠ 0b0010 ∧ lut (tcOf (pairOf 0x00 0) (pairOf 0x01 0)) ≠ .plus := by
  refine ⟨by decide, by decide, fun g c h => ?_, by decide, by decide⟩
  cases h

/-- ReadingNoValueFaults, each clause. -/
theorem witness_ReadingNoValueFaults :
    (({ State.reset with seq := .run .c (.ch 2) } : State).seq = .run .c (.ch 2) ∧ State.reset.prevOf .c = none) ∧
    ((atRead .c 5 []).prevOf .c = some 5 ∧ (atRead .c 5 []).new = none) ∧
    (({ State.reset with seq := .run .c .latch } : State).seq = .run .c .latch ∧ State.reset.new = none) := by decide

/-- OnlyItsChannelDecodeWritesACounter: a counter that changes. -/
theorem witness_OnlyItsChannelDecodeWritesACounter :
    ∃ t, exec .inc (inSample .b (.ch 1) 0x00 0x08) = .next t ∧
      t.counter .b 1 ≠ (inSample .b (.ch 1) 0x00 0x08).counter .b 1 := ⟨_, rfl, by decide⟩

/-- OnlySeedAndLatchWriteABaseline: a baseline that changes, in each of the three ways. -/
theorem witness_OnlySeedAndLatchWriteABaseline :
    (∃ t, exec .seedA { State.reset with answers := [9] } = .next t ∧ t.prevOf .a ≠ State.reset.prevOf .a) ∧
    (∃ t, exec (.ustepLatch .b) (inSample .b .latch 1 2) = .next t ∧ t.prevOf .b ≠ some 1) ∧
    (∃ t, exec (sampleOf .c .rd) (atRead .c 1 [2]) = .next t ∧ t.prevOf .c ≠ some 1) :=
  ⟨⟨_, rfl, by decide⟩, ⟨_, rfl, by decide⟩, ⟨_, rfl, by decide⟩⟩

/-- OnlyResetLeavesTheOrder, ReadGroupIsCalledOncePerSample: one step of each kind. -/
theorem witness_one_step_of_each_kind :
    isNext (exec (.rdctr .a 0) State.reset) = true ∧ isNext (exec .seedA State.reset) = true ∧
    isNext (exec (.ustepRd .d) (atRead .d 0 [1])) = true ∧ isNext (exec (.sampleD .latch) (inSample .d .latch 1 2)) = true := by
  decide

/-- StepsKeepStatesLegal, LegalStatesNeverFault, CoreIsNeverStuck, CountersMoveByAtMostOnePerIteration: a legal state in the
seed phase and one inside a SAMPLE. -/
theorem witness_legal_in_seed_phase :
    Legal { State.reset with seq := .seed .b, prev := State.reset.prev.set 0 (some 5) } := by
  refine ⟨fun h => by cases h <;> rfl, rfl, fun _ k => ?_⟩
  simp [State.reset]

theorem witness_legal_inside_a_sample : Legal (inSample .d (.ch 2) 1 2) ∧ (inSample .d (.ch 2) 1 2).pending = [] := by
  refine ⟨⟨fun h => by cases h <;> rfl, rfl, fun h => ?_⟩, rfl⟩
  cases h

theorem witness_legal_step : isNext (step (inSample .d (.ch 2) 1 2)) = true := by decide

/-- Samples in which channel (A,0) makes forward steps, and no other channel moves. -/
def forwardSamples : Samples := fun i g =>
  match g with
  | .a => (pairAt i).zeroExtend 8
  | .b => 0xE4
  | .c => 0xE4
  | .d => 0xE4

/-- BootSeedsAndCountsNothing. -/
theorem witness_BootSeedsAndCountsNothing :
    PReset { State.reset with answers := roundAnswers (forwardSamples 0) ++ [1] } ∧ State.reset.pending = [] :=
  ⟨⟨{ State.reset with answers := roundAnswers (forwardSamples 0) ++ [1] }, rfl⟩, rfl⟩

/-- CountersAreTheSumOfDeltas (n = 2), CounterValueIsTheTrueSumInRange, UnmovedGroupCountsNothingFirst. -/
theorem witness_CountersAreTheSumOfDeltas :
    PReset { State.reset with answers := runAnswers forwardSamples 2 ++ [] } :=
  ⟨{ State.reset with answers := runAnswers forwardSamples 2 ++ [] }, rfl⟩

theorem witness_CounterValueIsTheTrueSumInRange :
    (∃ u, steps 4 { State.reset with answers := runAnswers forwardSamples 0 } = .next u) ∧
    PRange (deltaSum forwardSamples .a 0 2) ∧ InRange (deltaSum forwardSamples .a 0 2) ∧ InRange (-2147483648) ∧
    ¬PRange (-2147483648) :=
  ⟨⟨_, rfl⟩, by constructor <;> decide, by constructor <;> decide, by constructor <;> decide, fun h => absurd h.1 (by decide)⟩

theorem witness_UnmovedGroupCountsNothingFirst : forwardSamples 1 .b = forwardSamples 0 .b := rfl

/-- CoreIsNeverStuck, the premise P_FAIR: a snapshot stands ahead of CORE. -/
theorem witness_CoreIsNeverStuck :
    Legal { inSample .d (.ch 2) 1 2 with pending := [encode (.rdctr .a 0)] } ∧
    PFair { inSample .d (.ch 2) 1 2 with pending := [encode (.rdctr .a 0)] } := by
  refine ⟨⟨fun h => by cases h <;> rfl, rfl, fun h => ?_⟩, 1, _, rfl, rfl⟩
  cases h

/-- CountersMoveByAtMostOnePerIteration, second clause: a snapshot before, between and after two micro-steps of CORE, and a
whole SAMPLE. -/
theorem witness_CountersMoveByAtMostOnePerIteration :
    (let s : State := { inSample .d (.ch 3) 1 2 with pending := [encode (.rdctr .d 3), encode (.ustepCh3 .d), encode (.rdctr .d 3)] }
     encode .reset ∉ s.pending.take 4 ∧ coreStepsOf 4 s = 2 ∧ isNext (steps 4 s) = true) ∧
    coreStepsOf 1 { atRead .b 0 [1] with pending := [encode (.sampleB .rd)] } = 6 := by decide

/-- IterationDecodesEveryChannelOnce. -/
theorem witness_IterationDecodesEveryChannelOnce :
    AtIterationBoundary (atRead .a 7 (roundAnswers (forwardSamples 1) ++ [])) ∧
    (atRead .a 7 (roundAnswers (forwardSamples 1) ++ [])).pending = [] ∧
    (∀ g, (atRead .a 7 (roundAnswers (forwardSamples 1) ++ [])).prevOf g = some 7) ∧
    (atRead .a 7 (roundAnswers (forwardSamples 1) ++ [])).answers = roundAnswers (forwardSamples 1) ++ [] :=
  ⟨rfl, rfl, fun g => by cases g <;> rfl, rfl⟩

/-- DeltaSumTracksThePairModuloFour, SlowChannelIsCountedTruly: two real forward steps. -/
theorem witness_DeltaSumTracksThePairModuloFour :
    ∀ i, i < 2 → classOf (pairOf (forwardSamples i .a) 0) (pairOf (forwardSamples (i + 1) .a) 0) ≠ .amb := by decide

theorem witness_SlowChannelIsCountedTruly :
    PRate forwardSamples (fun i => (i : Int)) .a 0 2 ∧ PSetup forwardSamples (fun i => (i : Int)) .a 0 ∧ 1 ≤ 2 := by
  refine ⟨fun i h => ⟨?_, ?_⟩, rfl, by decide⟩
  · right; right; show ((i + 1 : Nat) : Int) - (i : Nat) = 1; omega
  · obtain rfl | rfl : i = 0 ∨ i = 1 := by omega
    · rfl
    · rfl

/-- BootAndIterLinesRun: a script that loads in a legal state, with a block, a snapshot in it and answers queued behind it. -/
theorem witness_BootAndIterLinesRun :
    Legal { inSample .d (.ch 2) 1 2 with answers := [9] } ∧
    (({ inSample .d (.ch 2) 1 2 with answers := [9] } : State).load (boot 0 0 0 0 ++
      [.sampleSteps 'A' 0xAA (.ustep :: .rdctr 'A' 0 0 :: List.replicate 5 .ustep)])).isSome = true := by
  refine ⟨⟨fun h => by cases h <;> rfl, rfl, fun h => ?_⟩, by decide⟩
  cases h

/-- OnlyBrokenReadsTear: a mixture of whole words is one of them; a snapshot READER goes by. -/
theorem witness_OnlyBrokenReadsTear : GranuleMix 32 [5, 6] 6 := fun _ => ⟨6, by decide, fun _ _ => rfl⟩

theorem witness_PContract :
    ∃ t, steps 1 { inSampleWith .b 1 7 1 2 with pending := [encode (.rdctr .b 1)] } = .next t ∧ PContract t [⟨.b, 1, 7⟩] :=
  ⟨{ inSampleWith .b 1 7 1 2 with reads := [⟨.b, 1, 7⟩] }, rfl, fun _ h => h⟩

end Sys2Proof.Tests
end

section
/-! PROOFS. Family 10_state: the bound of R25. Each channel is given its distance, in micro-steps, to its next decode; a
stretch of at most 24 micro-steps either ends before that decode or takes it in exactly once. -/

namespace Sys2Proof.Machine

/-! ### The decoder -/

theorem decodeTc_ne_reset (w : Nat) : decodeTc w ≠ .ok .reset := by
  unfold decodeTc
  split <;> simp

theorem decodeDelta_ne_reset (w : Nat) : decodeDelta w ≠ .ok .reset := by
  unfold decodeDelta
  split <;> simp

theorem seedOf_ne_reset (g : Group) : seedOf g ≠ .reset := by cases g <;> simp [seedOf]

theorem sampleOf_ne_reset (g : Group) (u : UStep) : sampleOf g u ≠ .reset := by cases g <;> simp [sampleOf]

theorem ustepOf_ne_reset (g : Group) (u : UStep) : ustepOf g u ≠ .reset := by
  unfold ustepOf
  split <;> simp

theorem decodeSeqOp_ne_reset (w : Nat) : decodeSeqOp w ≠ .ok .reset := by
  unfold decodeSeqOp
  split_ifs
  · simp
  · simp [seedOf_ne_reset]
  · simp
  · split <;> simp [sampleOf_ne_reset]

theorem decodeSeqUstep_ne_reset (w : Nat) : decodeSeqUstep w ≠ .ok .reset := by
  unfold decodeSeqUstep
  split_ifs
  · simp
  · simp
  · split <;> simp [ustepOf_ne_reset]

theorem decodeCtrAddr_ne_reset (w : Nat) : decodeCtrAddr w ≠ .ok .reset := by
  unfold decodeCtrAddr
  split <;> simp

theorem eq_one_of_decodeRst {w : Nat} (h : decodeRst w = .ok .reset) : w = 1 := by
  unfold decodeRst at h
  split at h
  · cases h
  · rfl
  · cases h

/-- Only RESET's own word means RESET (R110). -/
theorem eq_encode_reset_of_decode {r : Request} (h : decode r = .ok .reset) : r = encode .reset := by
  obtain ⟨fmt, bits⟩ := r
  cases fmt with
  | tc => exact absurd h (decodeTc_ne_reset _)
  | delta => exact absurd h (decodeDelta_ne_reset _)
  | seqOp => exact absurd h (decodeSeqOp_ne_reset _)
  | seqUstep => exact absurd h (decodeSeqUstep_ne_reset _)
  | ctrAddr => exact absurd h (decodeCtrAddr_ne_reset _)
  | rst =>
    have one : bits = 1 := BitVec.eq_of_toNat_eq (eq_one_of_decodeRst h)
    rw [one]
    rfl

theorem request_ne_encode_reset (q : Seq) : q.request ≠ encode .reset := by
  cases q <;> simp [Seq.request, encode]

/-! ### How many micro-steps a word stands for -/

section
variable {r : Request}

theorem coreSteps_of_channelDecode {i : Instr} (h : decode r = .ok i) (row : isChannelDecode i = true) :
    coreSteps r = 1 := by
  cases i <;> simp_all [coreSteps, isChannelDecode]

theorem coreSteps_of_seedOf {g : Group} (h : decode r = .ok (seedOf g)) : coreSteps r = 1 := by
  cases g <;> simp [coreSteps, h, seedOf]

theorem coreSteps_of_ustepOf {g : Group} {u : UStep} (h : decode r = .ok (ustepOf g u)) : coreSteps r = 1 := by
  rcases u with _ | c | _
  · simp [coreSteps, h, ustepOf]
  · fin_cases c <;> simp [coreSteps, h, ustepOf]
  · simp [coreSteps, h, ustepOf]

theorem coreSteps_of_sampleOf {g : Group} {u : UStep} (h : decode r = .ok (sampleOf g u)) :
    coreSteps r = (ustepsFrom u).length := by
  cases g <;> simp [coreSteps, h, sampleOf]

theorem coreSteps_of_rdctr {g : Group} {c : Chan} (h : decode r = .ok (.rdctr g c)) : coreSteps r = 0 := by
  simp [coreSteps, h]

end

theorem ustepsFrom_length_le (u : UStep) : (ustepsFrom u).length ≤ 6 := by
  rcases u with _ | c | _
  · decide
  · revert c; decide
  · decide

@[simp] theorem coreSteps_request (q : Seq) : coreSteps q.request = 1 := by
  cases q with
  | seed g => exact coreSteps_of_seedOf (decode_seed_request g)
  | run g u => exact coreSteps_of_ustepOf (decode_run_request g u)

@[simp] theorem coreStepsOf_zero (s : State) : coreStepsOf 0 s = 0 := by simp [coreStepsOf]

/-- A step takes the next pending event off the queue, if there is one. -/
theorem step_pending {s t : State} (h : step s = .next t) : t.pending = s.pending.tail := by
  obtain ⟨i, -, hx⟩ := step_next h
  rw [exec_pending hx]
  cases e : s.pending with
  | nil => rw [fetch_nothing_pending e, e]; rfl
  | cons r rest => rw [fetch_pending e]; rfl

/-- The micro-steps of `n + 1` steps are those of the event fetched now and those of the `n` steps after it. -/
theorem coreStepsOf_succ {n : Nat} {s a : State} (h : step s = .next a) :
    coreStepsOf (n + 1) s = coreSteps s.fetch.1 + coreStepsOf n a := by
  have tail := step_pending h
  cases e : s.pending with
  | nil => simp [coreStepsOf, tail, e, fetch_nothing_pending e, Nat.add_comm]
  | cons r rest => simp [coreStepsOf, tail, e, fetch_pending e, Nat.add_assoc]

/-- Where none of the next events is a RESET, neither is the one fetched now nor any after the step. -/
theorem no_reset_fetched {n : Nat} {s a : State} (hr : encode .reset ∉ s.pending.take (n + 1)) (h : step s = .next a) :
    s.fetch.1 ≠ encode .reset ∧ encode .reset ∉ a.pending.take n := by
  rw [step_pending h]
  cases e : s.pending with
  | nil => simp [fetch_nothing_pending e, request_ne_encode_reset]
  | cons r rest => simpa [e, fetch_pending e, eq_comm] using hr

/-! ### One turn of the sequencer, as one channel sees it -/

/-- How many micro-steps CORE performs before the one that decodes channel (g,c) is due (R97): the 24 run positions are
numbered around the cycle, and the seed positions lead up to its start. -/
def untilDecode (g : Group) (c : Chan) : Seq → Nat
  | .seed h => 4 - (Group.id h).val + (6 * (Group.id g).val + (c.val + 1))
  | .run h u => (6 * (Group.id g).val + (c.val + 1) + 24 - (6 * (Group.id h).val + u.code)) % 24

@[simp] theorem untilDecode_self (g : Group) (c : Chan) : untilDecode g c (.run g (.ch c)) = 0 := by
  simp [untilDecode, UStep.code]

/-- After its decode a channel waits for the other 23 micro-steps of the iteration. -/
theorem untilDecode_after_decode (g : Group) (c : Chan) : untilDecode g c (nextSeq (.run g (.ch c))) = 23 := by
  cases g <;> revert c <;> decide

/-- Every other micro-step brings the decode of the channel nearer by one. -/
theorem untilDecode_nextSeq {g : Group} {c : Chan} {q : Seq} (h : q ≠ .run g (.ch c)) :
    untilDecode g c (nextSeq q) + 1 = untilDecode g c q := by
  revert h
  rcases q with k | ⟨k, _ | e | _⟩
  · cases k <;> cases g <;> revert c <;> decide
  · cases k <;> cases g <;> revert c <;> decide
  · cases k <;> cases g <;> revert c e <;> decide
  · cases k <;> cases g <;> revert c <;> decide

/-- At a group's RD its channels stand next in line, and after its SAMPLE they wait for the rest of the iteration. -/
theorem untilDecode_rd_self (g : Group) (c : Chan) : untilDecode g c (.run g .rd) = c.val + 1 := by
  cases g <;> revert c <;> decide

theorem untilDecode_after_sample_self (g : Group) (c : Chan) : untilDecode g c (.run (nextGroup g) .rd) = c.val + 19 := by
  cases g <;> revert c <;> decide

theorem untilDecode_after_sample_other {g h : Group} (ne : h ≠ g) (c : Chan) :
    untilDecode g c (.run (nextGroup h) .rd) + 6 = untilDecode g c (.run h .rd) := by
  revert ne
  cases h <;> cases g <;> revert c <;> decide

/-- What `m` micro-steps of CORE from `s` to `t` did to channel (g,c): they came before its decode and left its counter as it
was, or they took in its decode once and moved the counter by one delta. -/
def Passes (g : Group) (c : Chan) (m : Nat) (s t : State) : Prop :=
  (t.counter g c = s.counter g c ∧ untilDecode g c t.seq + m = untilDecode g c s.seq) ∨
  ((∃ d : Delta, t.counter g c = addDelta (s.counter g c) d) ∧ untilDecode g c s.seq < m ∧
    untilDecode g c t.seq + m = untilDecode g c s.seq + 24)

namespace Passes

variable {g h : Group} {c e : Chan} {m n : Nat} {s a t : State}

/-- Either way the counter is its old word plus a delta. -/
theorem counter_moves (p : Passes g c m s t) : ∃ d : Delta, t.counter g c = addDelta (s.counter g c) d := by
  obtain ⟨same, -⟩ | ⟨moved, -⟩ := p
  · exact ⟨.zero, by rw [same, addDelta_zero]⟩
  · exact moved

theorem refl (g : Group) (c : Chan) (s : State) : Passes g c 0 s s := .inl ⟨rfl, rfl⟩

/-- Within one iteration two stretches follow each other: 24 micro-steps are too few for a second decode. -/
theorem trans (p : Passes g c m s a) (q : Passes g c n a t) (le : m + n ≤ 24) : Passes g c (m + n) s t := by
  obtain ⟨same, left⟩ | ⟨⟨d, moved⟩, late, left⟩ := p
  · obtain ⟨same', left'⟩ | ⟨moved', late', left'⟩ := q
    · exact .inl ⟨same'.trans same, by omega⟩
    · exact .inr ⟨same ▸ moved', by omega, by omega⟩
  · obtain ⟨same', left'⟩ | ⟨moved', late', left'⟩ := q
    · exact .inr ⟨⟨d, same'.trans moved⟩, by omega, by omega⟩
    · omega

/-- A micro-step that advances the position passes every channel, if it moves a counter only by a delta and only in the
channel's own decode. -/
theorem of_advance (seq : t.seq = nextSeq s.seq)
    (other : s.seq ≠ .run g (.ch c) → t.counter g c = s.counter g c)
    (own : s.seq = .run g (.ch c) → ∃ d, t.counter g c = addDelta (s.counter g c) d) : Passes g c 1 s t := by
  by_cases due : s.seq = .run g (.ch c)
  · refine .inr ⟨own due, ?_, ?_⟩
    · simp [due]
    · rw [seq, due, untilDecode_after_decode, untilDecode_self]
  · exact .inl ⟨other due, by rw [seq, untilDecode_nextSeq due]⟩

theorem of_counters_kept (seq : t.seq = nextSeq s.seq) (kept : t.counter g c = s.counter g c) : Passes g c 1 s t :=
  of_advance seq (fun _ => kept) fun _ => ⟨.zero, by rw [kept, addDelta_zero]⟩

/-- The decode of the selected channel. -/
theorem of_channel_decode (hs : s.seq = .run h (.ch e)) (d : Delta) :
    Passes g c 1 s (s.setCounter h e (addDelta (s.counter h e) d)).advance := by
  refine of_advance rfl (fun ne => ?_) fun due => ⟨d, ?_⟩
  · rw [State.counter_advance, State.counter_setCounter, if_neg]
    rintro ⟨rfl, rfl⟩
    exact ne hs
  · obtain ⟨rfl, rfl⟩ : h = g ∧ e = c := by simpa [hs] using due
    rw [State.counter_advance, State.counter_setCounter_same]

theorem of_ustep {u : UStep} (hu : ustep h u s = .next t) : Passes g c 1 s t := by
  rcases u with _ | e | _
  · obtain ⟨-, rfl⟩ := readStep_next hu
    exact of_counters_kept rfl rfl
  · obtain ⟨p8, n8, hs, -, -, rfl⟩ := channelStep_next hu
    rw [chdec_eq]
    exact of_channel_decode hs _
  · obtain ⟨n8, -, -, rfl⟩ := latchStep_next hu
    exact of_counters_kept rfl rfl

theorem of_runUsteps {us : List UStep} (le : us.length ≤ 24) (hu : runUsteps h us s = .next t) :
    Passes g c us.length s t := by
  induction us generalizing s with
  | nil =>
    obtain rfl := Host.Outcome.next.inj hu
    exact refl g c s
  | cons u us ih =>
    obtain ⟨a, first, rest⟩ := andThen_eq_next.mp hu
    rw [List.length_cons] at le ⊢
    rw [Nat.add_comm] at le ⊢
    exact (of_ustep first).trans (ih (by omega) rest) le

/-- A whole SAMPLE takes its group's channels past their decode, and brings those of another group nearer by six. -/
theorem of_sampleWhole (hw : sampleWhole h s = .next t) : Passes g c 6 s t := by
  obtain ⟨p8, hs, -, rfl⟩ := sampleWhole_next hw
  have counter : (grpdec h p8 s.readGroup s.answered).counter g c = _ := grpdec_counter h g c p8 s.readGroup s.answered
  by_cases own : h = g
  · subst own
    have start : untilDecode h c s.seq = c.val + 1 := by rw [hs, untilDecode_rd_self]
    have left : untilDecode h c (.run (nextGroup h) .rd) + 6 = untilDecode h c s.seq + 24 := by
      rw [start, untilDecode_after_sample_self]
    exact .inr ⟨⟨_, counter.trans (if_pos rfl)⟩, by omega, left⟩
  · exact .inl ⟨counter.trans (if_neg own), by rw [hs, ← untilDecode_after_sample_other own]⟩

theorem of_sampleFrom {u : UStep} (hf : sampleFrom h u s = .next t) : Passes g c (ustepsFrom u).length s t := by
  rcases u with _ | e | _
  · exact of_sampleWhole hf
  · exact of_runUsteps ((ustepsFrom_length_le _).trans (by decide)) hf
  · exact of_runUsteps (by decide) hf

/-- Any operation but RESET, named by its word `r`: the micro-steps it is counted as are those it performs. -/
theorem of_exec {i : Instr} {r : Request} (hd : decode r = .ok i) (hi : i ≠ .reset) (hx : exec i s = .next t) :
    Passes g c (coreSteps r) s t := by
  cases exec_cases hx with
  | decoded k e p8 n8 row seq _ _ eq =>
    rw [coreSteps_of_channelDecode hd row, eq]
    exact of_channel_decode seq _
  | seeded k row _ eq =>
    rw [coreSteps_of_seedOf (row ▸ hd), eq]
    exact of_counters_kept rfl rfl
  | sampled k row _ eq =>
    rw [coreSteps_of_ustepOf (u := .rd) (row ▸ hd), eq]
    exact of_counters_kept rfl rfl
  | latched k n8 row _ _ eq =>
    rw [coreSteps_of_ustepOf (u := .latch) (row ▸ hd), eq]
    exact of_counters_kept rfl rfl
  | whole k u row eq =>
    rw [coreSteps_of_sampleOf (row ▸ hd)]
    exact of_sampleFrom eq
  | read k e row eq =>
    rw [coreSteps_of_rdctr (row ▸ hd), eq]
    exact refl g c s
  | reset row _ => exact absurd row hi

theorem of_step (hr : s.fetch.1 ≠ encode .reset) (hs : step s = .next t) : Passes g c (coreSteps s.fetch.1) s t := by
  obtain ⟨i, hd, hx⟩ := step_next hs
  have hi : i ≠ .reset := fun e => hr (eq_encode_reset_of_decode (e ▸ hd))
  have fetched : Passes g c (coreSteps s.fetch.1) s.fetch.2 t := of_exec hd hi hx
  cases e : s.pending with
  | nil => rwa [fetch_nothing_pending e] at fetched ⊢
  | cons r rest => rwa [fetch_pending e] at fetched ⊢

/-- A run without a RESET of at most one iteration's micro-steps, whatever else is pending. -/
theorem of_steps (hr : encode .reset ∉ s.pending.take n) (le : coreStepsOf n s ≤ 24) (hs : steps n s = .next t) :
    Passes g c (coreStepsOf n s) s t := by
  induction n generalizing s with
  | zero =>
    obtain rfl := Host.Outcome.next.inj hs
    rw [coreStepsOf_zero]
    exact refl g c s
  | succ n ih =>
    rw [steps_succ] at hs
    obtain ⟨a, first, rest⟩ := andThen_eq_next.mp hs
    obtain ⟨hr, hrs⟩ := no_reset_fetched hr first
    rw [coreStepsOf_succ first] at le ⊢
    exact (of_step hr first).trans (ih hrs (by omega) rest) le

end Passes

/-! ### CORE alone, from a legal state -/

/-- With nothing pending, the step is the micro-step the position selects (R18). -/
theorem step_seed {s : State} {g : Group} (hp : s.pending = []) (hs : s.seq = .seed g) : step s = seedStep g s := by
  simp only [step, fetch_nothing_pending hp, hs, decode_seed_request, exec_seedOf]

theorem step_run {s : State} {g : Group} {u : UStep} (hp : s.pending = []) (hs : s.seq = .run g u) :
    step s = ustep g u s := by
  simp only [step, fetch_nothing_pending hp, hs, decode_run_request, exec_ustepOf]

theorem seedStep_selected {s : State} {g : Group} (hs : s.seq = .seed g) :
    seedStep g s = .next (s.answered.setPrev g s.readGroup).advance := by
  simp [seedStep, hs]

theorem readStep_selected {s : State} {g : Group} (hs : s.seq = .run g .rd) :
    readStep g s = .next (s.answered.setNew s.readGroup).advance := by
  simp [readStep, hs]

/-- SEED.g adds group g to the groups that have a baseline (R98). -/
theorem hasBaseline_nextSeq_seed (g h : Group) :
    hasBaseline (nextSeq (.seed g)) h = (decide (g = h) || hasBaseline (.seed g) h) := by
  cases g <;> cases h <;> rfl

theorem insideSample_nextSeq_seed (g : Group) : insideSample (nextSeq (.seed g)) = false := by
  cases g <;> rfl

/-- After RD and up to LATCH a SAMPLE is in progress (R19). -/
theorem insideSample_nextSeq_run (g : Group) (u : UStep) :
    insideSample (nextSeq (.run g u)) = decide (u ≠ .latch) := by
  rcases u with _ | c | _
  · rfl
  · fin_cases c <;> rfl
  · rfl

/-- In phase RUN a state is legal where every baseline holds a value and `NEW` does inside a SAMPLE. -/
theorem Legal.of_run {t : State} {g : Group} {u : UStep} (seq : t.seq = nextSeq (.run g u))
    (prev : ∀ h, (t.prevOf h).isSome = true) (new : t.new.isSome = decide (u ≠ .latch)) : Legal t := by
  obtain ⟨k, v, run⟩ := nextSeq_run g u
  refine ⟨fun h => ?_, ?_, fun seed => ?_⟩
  · rw [prev, seq, run]; rfl
  · rw [new, seq, insideSample_nextSeq_run]
  · rw [seq, run] at seed; cases seed

/-- A legal state in phase RUN has every baseline (R24). -/
theorem Legal.baseline {s : State} {g : Group} {u : UStep} (legal : Legal s) (hs : s.seq = .run g u) (h : Group) :
    ∃ p8, s.prevOf h = some p8 := by
  rw [← Option.isSome_iff_exists, legal.1, hs]
  rfl

/-- A legal state inside a SAMPLE has its sample (R19). -/
theorem Legal.sample {s : State} {g : Group} {u : UStep} (legal : Legal s) (hs : s.seq = .run g u) (hu : u ≠ .rd) :
    ∃ n8, s.new = some n8 := by
  obtain ⟨-, new, -⟩ := legal
  rw [← Option.isSome_iff_exists, new, hs]
  simp [insideSample, hu]

theorem Legal.after_seed {s : State} {g : Group} (legal : Legal s) (hs : s.seq = .seed g) :
    Legal (s.answered.setPrev g s.readGroup).advance := by
  obtain ⟨prev, new, zero⟩ := legal
  rw [hs] at prev new zero
  refine ⟨fun h => ?_, ?_, fun _ => zero rfl⟩
  · rw [State.advance_seq, State.setPrev_seq, State.answered_seq, hs, hasBaseline_nextSeq_seed, ← prev,
      State.prevOf_advance, State.prevOf_setPrev]
    by_cases own : g = h
    · simp [own]
    · simp [own]
  · rw [State.advance_seq, State.setPrev_seq, State.answered_seq, hs, insideSample_nextSeq_seed]
    exact new

/-- The selected micro-step of a SAMPLE finds its operands, and leaves a legal state (R24). -/
theorem Legal.exists_ustep {s : State} {g : Group} {u : UStep} (legal : Legal s) (hs : s.seq = .run g u) :
    ∃ t, ustep g u s = .next t ∧ Legal t := by
  have prev : ∀ h, (s.prevOf h).isSome = true := fun h => Option.isSome_iff_exists.mpr (legal.baseline hs h)
  rcases u with _ | c | _
  · exact ⟨_, readStep_selected hs, .of_run (congrArg nextSeq hs) prev rfl⟩
  · obtain ⟨p8, hp⟩ := legal.baseline hs g
    obtain ⟨n8, hn⟩ := legal.sample hs (by simp)
    exact ⟨_, channelStep_selected hs hp hn, .of_run (congrArg nextSeq hs) prev (by simp [hn])⟩
  · obtain ⟨n8, hn⟩ := legal.sample hs (by simp)
    refine ⟨_, latchStep_selected hs hn, .of_run (congrArg nextSeq hs) (fun h => ?_) rfl⟩
    rw [State.prevOf_advance, State.prevOf_dropNew, State.prevOf_setPrev]
    split
    · rfl
    · exact prev h

/-- From a legal state with nothing pending CORE's micro-step happens and leaves such a state. -/
theorem Legal.exists_step {s : State} (legal : Legal s) (hp : s.pending = []) :
    ∃ t, step s = .next t ∧ Legal t ∧ t.pending = [] := by
  have happens : ∃ t, step s = .next t ∧ Legal t := by
    cases hs : s.seq with
    | seed g => exact ⟨_, (step_seed hp hs).trans (seedStep_selected hs), legal.after_seed hs⟩
    | run g u => rw [step_run hp hs]; exact legal.exists_ustep hs
  obtain ⟨t, ht, legal'⟩ := happens
  exact ⟨t, ht, legal', by rw [step_pending ht, hp]; rfl⟩

/-- So CORE alone runs on for any number of steps. -/
theorem Legal.exists_steps (n : Nat) {s : State} (legal : Legal s) (hp : s.pending = []) : ∃ t, steps n s = .next t := by
  induction n generalizing s with
  | zero => exact ⟨s, rfl⟩
  | succ n ih =>
    obtain ⟨a, first, legal', hp'⟩ := legal.exists_step hp
    rw [steps_succ, first]
    exact ih legal' hp'

theorem coreStepsOf_nothing_pending (n : Nat) {s : State} (hp : s.pending = []) : coreStepsOf n s = n := by
  simp [coreStepsOf, hp]

/-- Settles O52: within 24 micro-steps of CORE a channel's decode comes due at most once, so its counter takes at most one
delta; and CORE alone never stops in a legal state. -/
theorem countersMoveByAtMostOnePerIteration : Obligations.CountersMoveByAtMostOnePerIteration := by
  refine ⟨fun n s le legal hp => ?_, fun n s t _ hr le hs g c => (Passes.of_steps hr le hs).counter_moves⟩
  obtain ⟨t, hs⟩ := legal.exists_steps n hp
  have le : coreStepsOf n s ≤ 24 := by rwa [coreStepsOf_nothing_pending n hp]
  exact ⟨t, hs, fun g c => (Passes.of_steps (by simp [hp]) le hs).counter_moves⟩

end Sys2Proof.Machine
end

section
/-! PROOFS. Family 40_decode_table: the table's census and classes (R62, R79), and the sixteen rows as operations (R63 to
R78). Each row's arm of `exec` is `transition` with the row's code and effect, and `transition_selected` says what that
answers. -/

namespace Sys2Proof.Machine

/-! ### The census -/

/-- Settles O2, by evaluating the sixteen entries. -/
theorem tableCensusIsFourFourEight : Obligations.TableCensusIsFourFourEight := by
  refine ⟨?plus, ?minus, ?zero⟩
  case plus => decide
  case minus => decide
  case zero => decide

/-! ### The classes -/

theorem forward_ne_self (p : Pair) : forward p ≠ p := by
  revert p; decide

/-- Two steps along the forward cycle lead to the pair opposite, both bits inverted. -/
theorem forward_forward (p : Pair) : forward (forward p) = ~~~p := by
  revert p; decide

theorem not_ne_self (p : Pair) : ~~~p ≠ p := by
  revert p; decide

/-- The cycle has four pairs: one that is neither `p` nor a neighbour of `p` is the one opposite. -/
theorem eq_not_of_not_adjacent {p q : Pair} (stay : p ≠ q) (fwd : q ≠ forward p) (bwd : p ≠ forward q) : q = ~~~p := by
  revert p q; decide

theorem classOf_self (p : Pair) : classOf p p = .stay := if_pos rfl

theorem classOf_forward (p : Pair) : classOf p (forward p) = .fwd := by
  simp [classOf, (forward_ne_self p).symm]

theorem classOf_of_forward (q : Pair) : classOf (forward q) q = .bwd := by
  simp [classOf, forward_ne_self, forward_forward, (not_ne_self q).symm]

theorem classOf_not (p : Pair) : classOf p (~~~p) = .amb := by
  have stay : p ≠ ~~~p := (not_ne_self p).symm
  have fwd : ~~~p ≠ forward p := forward_forward p ▸ forward_ne_self (forward p)
  have bwd : p ≠ forward (~~~p) := fun h => by
    have back : forward p = p := by
      rw [h, forward_forward, BitVec.not_not]
      exact h
    exact forward_ne_self p back
  simp [classOf, stay, fwd, bwd]

/-- The condition of each class (R62). -/
def classCondition : TransClass → Pair → Pair → Prop
  | .stay, p, q => p = q
  | .fwd, p, q => q = forward p
  | .bwd, p, q => p = forward q
  | .amb, p, q => q = ~~~p

/-- The codes of each class (R62). -/
def classCodes : TransClass → List Nat
  | .stay => [0, 5, 10, 15]
  | .fwd => [2, 11, 13, 4]
  | .bwd => [1, 7, 14, 8]
  | .amb => [3, 12, 6, 9]

theorem classCondition_classOf (p q : Pair) : classCondition (classOf p q) p q := by
  unfold classOf
  split_ifs with stay fwd bwd
  · exact stay
  · exact fwd
  · exact bwd
  · exact eq_not_of_not_adjacent stay fwd bwd

/-- A transition is of the one class whose condition it meets. -/
theorem classOf_eq_iff {k : TransClass} {p q : Pair} : classOf p q = k ↔ classCondition k p q := by
  refine ⟨fun h => h ▸ classCondition_classOf p q, fun h => ?_⟩
  cases k with
  | stay => obtain rfl : p = q := h; exact classOf_self p
  | fwd => obtain rfl : q = forward p := h; exact classOf_forward p
  | bwd => obtain rfl : p = forward q := h; exact classOf_of_forward q
  | amb => obtain rfl : q = ~~~p := h; exact classOf_not p

theorem classOf_eq_iff_code {k : TransClass} {p q : Pair} : classOf p q = k ↔ (tcOf p q).toNat ∈ classCodes k := by
  revert p q
  cases k with
  | stay => decide
  | fwd => decide
  | bwd => decide
  | amb => decide

/-- The table gives the delta of the class (R61, R62). -/
theorem lut_tcOf (p q : Pair) : lut (tcOf p q) = classDelta (classOf p q) := by
  revert p q; decide

/-- Settles O3: a class is its condition and is its codes. -/
theorem classesGiveTheirDeltas : Obligations.ClassesGiveTheirDeltas := by
  refine ⟨lut_tcOf, fun _ _ => classOf_eq_iff, fun _ _ => classOf_eq_iff, fun _ _ => classOf_eq_iff,
    fun _ _ => classOf_eq_iff, ?cycle, fun _ _ => ?codes⟩
  case cycle => decide
  case codes => exact ⟨classOf_eq_iff_code, classOf_eq_iff_code, classOf_eq_iff_code, classOf_eq_iff_code⟩

/-! ### The rows -/

theorem lut_fwdRows : ∀ row ∈ fwdRows, lut row.2 = .plus := by decide

theorem lut_bwdRows : ∀ row ∈ bwdRows, lut row.2 = .minus := by decide

theorem lut_holdRows : ∀ row ∈ stayRows ++ ambRows, lut row.2 = .zero := by decide

theorem exec_fwdRows : ∀ row ∈ fwdRows, exec row.1 = transition row.2 effectInc := by
  simp only [fwdRows, List.forall_mem_cons]
  exact ⟨rfl, rfl, rfl, rfl, by simp⟩

theorem exec_bwdRows : ∀ row ∈ bwdRows, exec row.1 = transition row.2 effectDec := by
  simp only [bwdRows, List.forall_mem_cons]
  exact ⟨rfl, rfl, rfl, rfl, by simp⟩

theorem exec_holdRows : ∀ row ∈ stayRows ++ ambRows, exec row.1 = transition row.2 effectHold := by
  simp only [stayRows, ambRows, List.cons_append, List.nil_append, List.forall_mem_cons]
  exact ⟨rfl, rfl, rfl, rfl, rfl, rfl, rfl, rfl, by simp⟩

/-- Adding 0xFFFFFFFF modulo 2^32 takes one away (R87). -/
theorem effectDec_eq_sub_one (g : Group) (c : Chan) (s : State) :
    effectDec g c s = s.setCounter g c (s.counter g c - 1) := by
  rw [BitVec.sub_eq_add_neg]
  rfl

/-- Settles O16: each FWD row is its code with INC. -/
theorem forwardCodesCountUp : Obligations.ForwardCodesCountUp := by
  intro row mem s g c p8 n8 hs hp hn ht
  refine ⟨lut_fwdRows row mem, ?_⟩
  rw [exec_fwdRows row mem]
  exact transition_selected hs hp hn ht

/-- Settles O17: each BWD row is its code with DEC. -/
theorem backwardCodesCountDown : Obligations.BackwardCodesCountDown := by
  intro row mem s g c p8 n8 hs hp hn ht
  refine ⟨lut_bwdRows row mem, ?_⟩
  rw [exec_bwdRows row mem, transition_selected hs hp hn ht, effectDec_eq_sub_one]
  rfl

/-- Settles O18: each STAY and each AMB row is its code with HOLD, which leaves the state as it is. -/
theorem stayAndAmbiguousCodesHold : Obligations.StayAndAmbiguousCodesHold := by
  intro row mem s g c p8 n8 hs hp hn ht
  refine ⟨lut_holdRows row mem, ?_⟩
  rw [exec_holdRows row mem]
  exact transition_selected hs hp hn ht

end Sys2Proof.Machine
end

section
/-! PROOFS. Family 41_channel_decoder: the three counter effects (R86 to R88) where the table selects them, and the
micro-step CHc as CHDEC of its channel (R85, R90). -/

namespace Sys2Proof.Machine

/-! ### The effects -/

theorem exec_hold (s : State) : exec .hold s = countEffect .zero effectHold s := rfl

theorem exec_inc (s : State) : exec .inc s = countEffect .plus effectInc s := rfl

theorem exec_dec (s : State) : exec .dec s = countEffect .minus effectDec s := rfl

/-- Settles O19: where the table gives its delta, an effect is selected and does its own write. -/
theorem effectsAddTheirDelta : Obligations.EffectsAddTheirDelta := by
  intro s g c p8 n8 hs hp hn
  refine ⟨fun plus => ?inc, fun minus => ?dec, fun zero => ?hold⟩
  case inc => rw [exec_inc, countEffect_selected hs hp hn plus]; rfl
  case dec => rw [exec_dec, countEffect_selected hs hp hn minus]; rfl
  case hold => rw [exec_hold, countEffect_selected hs hp hn zero]; rfl

/-! ### The micro-step -/

/-- At its position and with its operands readable, CHc is CHDEC and the advance. -/
theorem exec_ustepOf_ch_selected {s : State} {g : Group} {c : Chan} {p8 n8 : Raw} (hs : s.seq = .run g (.ch c))
    (hp : s.prevOf g = some p8) (hn : s.new = some n8) :
    exec (ustepOf g (.ch c)) s = .next (chdec g c (pairOf p8 c) (pairOf n8 c) s).advance := by
  rw [exec_ustepOf]
  exact channelStep_selected hs hp hn

theorem chdec_counter_same (g : Group) (c : Chan) (p q : Pair) (s : State) :
    (chdec g c p q s).counter g c = word (val (s.counter g c) + deltaVal (lut (tcOf p q))) := by
  rw [chdec_counter, if_pos ⟨rfl, rfl⟩, addDelta_eq_word]

theorem chdec_counter_other {g h : Group} {c d : Chan} (other : ¬(h = g ∧ d = c)) (p q : Pair) (s : State) :
    (chdec g c p q s).counter h d = s.counter h d := by
  rw [chdec_counter, if_neg fun same => other ⟨same.1.symm, same.2.symm⟩]

/-- Settles O20: the state CHc answers is CHDEC's, with the position advanced. -/
theorem channelMicroStepAddsTheTableEntry : Obligations.ChannelMicroStepAddsTheTableEntry := by
  intro s g c p8 n8 hs hp hn
  refine ⟨_, exec_ustepOf_ch_selected hs hp hn, ?counter, fun h d other => ?others, rfl, rfl, rfl, rfl, rfl, rfl, rfl⟩
  case counter => exact chdec_counter_same g c _ _ s
  case others => exact chdec_counter_other other _ _ s

end Sys2Proof.Machine
end

section
/-! PROOFS. Family 42_group_decoder: who can change a counter, and what its change depends on (R95); the four decodes of a
SAMPLE one after another, and in any order (R94). -/

namespace Sys2Proof.Machine

/-! ### Independence -/

/-- The delta of a channel is a function of the channel's own pairs (R93). -/
theorem channelDelta_congr {c : Chan} {p8 p8' n8 n8' : Raw} (hp : pairOf p8 c = pairOf p8' c)
    (hn : pairOf n8 c = pairOf n8' c) : channelDelta c p8 n8 = channelDelta c p8' n8' := by
  rw [channelDelta, channelDelta, hp, hn]

theorem exec_ustepOf_ch_counter_other {g h : Group} {c d : Chan} {s t : State}
    (run : exec (ustepOf g (.ch c)) s = .next t) (other : ¬(h = g ∧ d = c)) : t.counter h d = s.counter h d := by
  rw [exec_ustepOf] at run
  obtain ⟨p8, n8, -, -, -, rfl⟩ := channelStep_next run
  exact chdec_counter_other other _ _ s

theorem exec_sampleOf_counter_other_group {g h : Group} {u : UStep} {s t : State}
    (run : exec (sampleOf g u) s = .next t) (other : h ≠ g) (c : Chan) : t.counter h c = s.counter h c := by
  rw [exec_sampleOf] at run
  obtain ⟨-, -, -, -, others, -⟩ := sampleFrom_next run
  exact others h c other

theorem exec_sampleOf_counter_own_group {g : Group} {s t : State} {p8 : Raw} (hp : s.prevOf g = some p8)
    (run : exec (sampleOf g .rd) s = .next t) (c : Chan) :
    t.counter g c = addDelta (s.counter g c) (channelDelta c p8 s.readGroup) := by
  rw [exec_sampleOf] at run
  obtain ⟨p8', -, hp', rfl⟩ := sampleWhole_next run
  obtain rfl : p8 = p8' := Option.some.inj (hp.symm.trans hp')
  exact (grpdec_counter g g c p8 s.readGroup s.answered).trans (if_pos rfl)

/-- Settles O29: the first two clauses are the frames of SAMPLE.g and of CHc; for the third, what SAMPLE.g adds to a counter
is a function of the channel's pairs. -/
theorem channelDependsOnItsOwnPairsOnly : Obligations.ChannelDependsOnItsOwnPairsOnly := by
  refine ⟨fun g h c s t run other => exec_sampleOf_counter_other_group run other c,
    fun g h c d s t run other => exec_ustepOf_ch_counter_other run other, ?ownPairs⟩
  case ownPairs =>
    intro g c s s' t t' p8 p8' hp hp' samePrev sameNew sameCounter run run'
    rw [exec_sampleOf_counter_own_group hp run, exec_sampleOf_counter_own_group hp' run', sameCounter,
      channelDelta_congr samePrev sameNew]

/-! ### Order -/

/-- Decodes of different channels write different counters, so they commute. -/
theorem chdec_comm {g h : Group} {c d : Chan} (other : ¬(h = g ∧ d = c)) (p q p' q' : Pair) (s : State) :
    chdec h d p' q' (chdec g c p q s) = chdec g c p q (chdec h d p' q' s) := by
  have other' : ¬(g = h ∧ c = d) := fun same => other ⟨same.1.symm, same.2.symm⟩
  refine State.ext_fields (ctr_ext fun k e => ?_) rfl rfl rfl rfl rfl rfl rfl
  simp only [chdec_counter, if_neg other, if_neg other']
  by_cases first : g = k ∧ c = e
  · have second : ¬(h = k ∧ d = e) := fun same => other ⟨same.1.trans first.1.symm, same.2.trans first.2.symm⟩
    rw [if_pos first, if_neg second, if_pos first]
  · rw [if_neg first, if_neg first]

theorem foldl_chdec_eq_grpdec (g : Group) (p8 n8 : Raw) (s : State) {order : List Chan} (perm : order.Perm [0, 1, 2, 3]) :
    order.foldl (fun t c => chdec g c (pairOf p8 c) (pairOf n8 c) t) s = grpdec g p8 n8 s := by
  refine perm.foldl_eq' (fun c _ d _ t => ?_) s
  by_cases same : d = c
  · rw [same]
  · exact chdec_comm (fun both => same both.2) _ _ _ _ t

/-! ### One channel at a time -/

/-- `t` is inside the SAMPLE of group `g` that began in `s`, with the sample `n8` against the baseline `p8`, and exactly the
channels below `n` are decoded (R94). -/
structure DecodedBelow (g : Group) (p8 n8 : Raw) (s : State) (n : Nat) (t : State) : Prop where
  seq : t.seq = nextSeq^[n] (.run g (.ch 0))
  prev : t.prevOf g = some p8
  new : t.new = some n8
  pending : t.pending = []
  counter : ∀ c : Chan, t.counter g c =
    if c.val < n then addDelta (s.counter g c) (channelDelta c p8 n8) else s.counter g c

/-- From CH0 on the sequencer goes through the channels in order (R97). -/
theorem iterate_nextSeq_ch0 (g : Group) (c : Chan) : nextSeq^[c.val] (.run g (.ch 0)) = .run g (.ch c) := by
  fin_cases c <;> rfl

theorem steps_then_step {n : Nat} {s a t : State} (before : steps n s = .next a) (last : step a = .next t) :
    steps (n + 1) s = .next t := by
  rw [steps_add, before, andThen_next, steps_succ, last, andThen_next, steps_zero]

namespace DecodedBelow

variable {g : Group} {p8 : Raw} {s : State}

theorem after_read (hs : s.seq = .run g .rd) (hp : s.prevOf g = some p8) (idle : s.pending = []) :
    ∃ t, step s = .next t ∧ DecodedBelow g p8 s.readGroup s 0 t := by
  refine ⟨_, (step_run idle hs).trans (readStep_selected hs), ?_⟩
  exact ⟨congrArg nextSeq hs, hp, rfl, idle, fun c => rfl⟩

theorem after_channel {n8 : Raw} {a : State} {c : Chan} (d : DecodedBelow g p8 n8 s c.val a) :
    ∃ t, step a = .next t ∧ DecodedBelow g p8 n8 s (c.val + 1) t := by
  have hs : a.seq = .run g (.ch c) := d.seq.trans (iterate_nextSeq_ch0 g c)
  refine ⟨_, (step_run d.pending hs).trans (channelStep_selected hs d.prev d.new), ?_⟩
  refine ⟨?seq, d.prev, d.new, d.pending, fun e => ?counter⟩
  case seq => rw [Function.iterate_succ_apply', ← d.seq]; rfl
  case counter =>
    rw [State.counter_advance, chdec_counter, d.counter, d.counter, if_neg (lt_irrefl c.val), ← channelDelta]
    by_cases own : c = e
    · subst own
      rw [if_pos ⟨rfl, rfl⟩, if_pos (Nat.lt_succ_self c.val)]
    · have same : e.val < c.val + 1 ↔ e.val < c.val := by
        have apart : c.val ≠ e.val := fun eq => own (Fin.ext eq)
        omega
      simp only [own, and_false, if_false, same]

/-- RD and `n` channel decodes. -/
theorem after_steps (hs : s.seq = .run g .rd) (hp : s.prevOf g = some p8) (idle : s.pending = []) (n : Nat) (le : n ≤ 4) :
    ∃ t, steps (n + 1) s = .next t ∧ DecodedBelow g p8 s.readGroup s n t := by
  induction n with
  | zero =>
    obtain ⟨t, read, d⟩ := after_read hs hp idle
    exact ⟨t, steps_then_step (steps_zero s) read, d⟩
  | succ n ih =>
    obtain ⟨a, before, d⟩ := ih (by omega)
    obtain ⟨t, decode, d'⟩ := after_channel (c := ⟨n, le⟩) d
    exact ⟨t, steps_then_step before decode, d'⟩

end DecodedBelow

/-- Settles O30: the decodes commute, so their order is free; and CHk leaves exactly the channels below k + 1 decoded. -/
theorem countersChangeOneChannelAtATime : Obligations.CountersChangeOneChannelAtATime := by
  refine ⟨fun g p8 n8 s order perm => foldl_chdec_eq_grpdec g p8 n8 s perm, fun g k s p8 hs hp idle => ?_⟩
  obtain ⟨t, run, d⟩ := DecodedBelow.after_steps hs hp idle (k.val + 1) (by omega)
  refine ⟨t, run, fun c le => ?decoded, fun c later => ?waiting, d.prev⟩
  case decoded => rw [d.counter, if_pos (Nat.lt_succ_of_le le)]
  case waiting => rw [d.counter, if_neg (Nat.not_lt_of_le later)]

end Sys2Proof.Machine
end

section
/-! PROOFS. Family 43_sampling_sequencer: the order of the positions (R97, R98, R106), SAMPLE.g as one transition (R99), and
the iteration as four SAMPLEs of six micro-steps each (R100, R101). -/

namespace Sys2Proof.Machine

/-! ### The order of the positions -/

/-- How many of the four seed positions lie behind a position (R97). -/
def seedsBehind : Seq → Nat
  | .seed g => (Group.id g).val
  | .run _ _ => 4

/-- A micro-step passes one more seed position, until all four are behind; none ever lies ahead again. -/
theorem seedsBehind_nextSeq (q : Seq) : seedsBehind (nextSeq q) = min (seedsBehind q + 1) 4 := by
  cases q with
  | seed g => cases g <;> rfl
  | run g u =>
    obtain ⟨h, v, run⟩ := nextSeq_run g u
    rw [run]
    rfl

theorem seedsBehind_iterate_nextSeq (n : Nat) (q : Seq) :
    seedsBehind (nextSeq^[n + 1] q) = min (seedsBehind q + (n + 1)) 4 := by
  induction n with
  | zero => exact seedsBehind_nextSeq q
  | succ n ih =>
    rw [Function.iterate_succ_apply', seedsBehind_nextSeq, ih]
    omega

theorem iterate_nextSeq_ne_seed (g : Group) (n : Nat) : nextSeq^[n + 1] (.seed g) ≠ .seed g := by
  intro back
  have behind := seedsBehind_iterate_nextSeq n (.seed g)
  rw [back] at behind
  have four : seedsBehind (.seed g) < 4 := (Group.id g).isLt
  omega

theorem nextSeq_ne_seedA (q : Seq) : nextSeq q ≠ .seed .a := by
  intro first
  have behind := seedsBehind_nextSeq q
  rw [first] at behind
  have nothing : seedsBehind (.seed .a) = 0 := rfl
  omega

theorem inSeedPhase_nextSeq_of_run {q : Seq} (run : inSeedPhase q = false) : inSeedPhase (nextSeq q) = false := by
  cases q with
  | seed g => cases run
  | run g u =>
    obtain ⟨h, v, next⟩ := nextSeq_run g u
    rw [next]
    rfl

/-- Settles O22: SEED.g is one write of the baseline; the seed position it passes is behind for good. -/
theorem seedStoresTheBaseline : Obligations.SeedStoresTheBaseline := by
  refine ⟨fun g s hs => ?completes, fun g s t run => ?position, iterate_nextSeq_ne_seed⟩
  case completes =>
    refine ⟨_, (exec_seedOf g s).trans (seedStep_selected hs), ?own, fun h other => ?others, rfl, rfl, rfl, rfl, rfl⟩
    case own => exact State.prevOf_setPrev_same _ g _
    case others => exact (State.prevOf_setPrev _ g h _).trans (if_neg other.symm)
  case position =>
    rw [exec_seedOf] at run
    exact (seedStep_next run).1

/-! ### What an operation does to the position -/

/-- The operations that are one micro-step of CORE: all but a SAMPLE named as a whole, a snapshot and RESET. -/
def isMicroStep : Instr → Bool
  | .sampleA _ | .sampleB _ | .sampleC _ | .sampleD _ | .rdctr _ _ | .reset => false
  | _ => true

theorem isMicroStep_of_decode {i : Instr} (row : isChannelDecode i = true) : isMicroStep i = true := by
  cases i <;> simp_all [isChannelDecode, isMicroStep]

theorem isMicroStep_seedOf (g : Group) : isMicroStep (seedOf g) = true := by cases g <;> rfl

theorem ne_rdctr_of_microStep {i : Instr} (micro : isMicroStep i = true) (g : Group) (c : Chan) : i ≠ .rdctr g c := by
  rintro rfl; cases micro

theorem ne_sampleOf_of_microStep {i : Instr} (micro : isMicroStep i = true) (g : Group) (u : UStep) :
    i ≠ sampleOf g u := by
  rintro rfl; cases g <;> cases micro

theorem exec_seq_cases {i : Instr} {s t : State} (hi : i ≠ .reset) (run : exec i s = .next t) :
    (∃ g c, i = .rdctr g c) ∧ t.seq = s.seq ∨
    isMicroStep i = true ∧ t.seq = nextSeq s.seq ∨
    ∃ g u, i = sampleOf g u ∧ s.seq = .run g u ∧ t.seq = .run (nextGroup g) .rd := by
  cases exec_cases run with
  | decoded _ _ _ _ row _ _ _ eq => exact .inr (.inl ⟨isMicroStep_of_decode row, by rw [eq]; rfl⟩)
  | seeded g row _ eq => exact .inr (.inl ⟨row ▸ isMicroStep_seedOf g, by rw [eq]; rfl⟩)
  | sampled g row _ eq => exact .inr (.inl ⟨row ▸ rfl, by rw [eq]; rfl⟩)
  | latched g _ row _ _ eq => exact .inr (.inl ⟨row ▸ rfl, by rw [eq]; rfl⟩)
  | whole g u row eq =>
    obtain ⟨start, stop, -⟩ := sampleFrom_next eq
    exact .inr (.inr ⟨g, u, row, start, stop⟩)
  | read g c row eq => exact .inl ⟨⟨g, c, row⟩, by rw [eq]⟩
  | reset row _ => exact absurd row hi

/-- Settles O44: none of the three moves leaves phase RUN or arrives at (SEED, A, RD). -/
theorem onlyResetLeavesTheOrder : Obligations.OnlyResetLeavesTheOrder := by
  intro i s t hi run
  obtain ⟨snapshot, stays⟩ | ⟨micro, next⟩ | ⟨g, u, row, start, stop⟩ := exec_seq_cases hi run
  case inl => exact ⟨.inl ⟨snapshot, stays⟩, fun phase => stays ▸ phase, fun _ => stays⟩
  case inr.inl =>
    refine ⟨.inr (.inl ⟨ne_rdctr_of_microStep micro, ne_sampleOf_of_microStep micro, next⟩), fun phase => ?phase,
      fun first => absurd (next.symm.trans first) (nextSeq_ne_seedA s.seq)⟩
    case phase =>
      rw [next]
      exact inSeedPhase_nextSeq_of_run phase
  case inr.inr =>
    refine ⟨.inr (.inr ⟨g, u, row, start, stop⟩), fun _ => ?phase, fun first => ?first⟩
    case phase => rw [stop]; rfl
    case first => rw [stop] at first; cases first

/-! ### A SAMPLE as one transition -/

/-- Settles O25: SAMPLE.g finds its operands, and then answers what `sampleFrom_next` and the counter lemmas of R95 say. -/
theorem sampleDecodesThenKeepsTheSample : Obligations.SampleDecodesThenKeepsTheSample := by
  intro g s p8 hs hp
  have whole : sampleFrom g .rd s = .next _ := sampleWhole_selected hs hp
  have run := (exec_sampleOf g .rd s).trans whole
  obtain ⟨-, seq, -, -, -, others, pending, reads, read, -⟩ := sampleFrom_next whole
  obtain ⟨draws, answers⟩ := read rfl
  exact ⟨_, run, exec_sampleOf_counter_own_group hp run, fun h c other => exec_sampleOf_counter_other_group run other c,
    State.prevOf_setPrev_same _ g _, others, seq, reads, pending, draws, answers⟩

/-! ### A SAMPLE as six steps -/

/-- With nothing pending, micro-steps that follow each other in the sequencer's order are steps of the machine. -/
theorem steps_eq_runUsteps {g : Group} {u : UStep} {us : List UStep} {s : State}
    (order : (u :: us).IsChain fun v w => nextSeq (.run g v) = .run g w) (hs : s.seq = .run g u) (idle : s.pending = []) :
    steps (us.length + 1) s = runUsteps g (u :: us) s := by
  induction us generalizing u s with
  | nil =>
    rw [List.length_nil, steps_succ, step_run idle hs]
    rfl
  | cons v us ih =>
    rw [List.isChain_cons_cons] at order
    obtain ⟨next, order⟩ := order
    rw [List.length_cons, steps_succ, step_run idle hs]
    cases first : ustep g u s with
    | next a =>
      obtain ⟨-, seq, -, -, pending, -⟩ := ustep_frame first
      simpa [runUsteps, first] using ih order (seq.trans (hs ▸ next)) (pending.trans idle)
    | fault e => simp [runUsteps, first, andThen]
    | refused e => simp [runUsteps, first, andThen]

theorem runUsteps_cons_ch {g : Group} {c : Chan} {us : List UStep} {s : State} {p8 n8 : Raw}
    (hs : s.seq = .run g (.ch c)) (hp : s.prevOf g = some p8) (hn : s.new = some n8) :
    runUsteps g (.ch c :: us) s = runUsteps g us (chdec g c (pairOf p8 c) (pairOf n8 c) s).advance := by
  rw [runUsteps, ustep, channelStep_selected hs hp hn, andThen_next]

theorem runUsteps_latch {g : Group} {s : State} {n8 : Raw} (hs : s.seq = .run g .latch) (hn : s.new = some n8) :
    runUsteps g [.latch] s = .next (s.setPrev g n8).dropNew.advance := by
  rw [runUsteps, ustep, latchStep_selected hs hn, andThen_next, runUsteps]

/-- The six micro-steps decode the same pairs as GRPDEC and write the same registers (R99, R100). -/
theorem runUsteps_eq_sampleWhole {g : Group} {s : State} {p8 : Raw} (hs : s.seq = .run g .rd)
    (hp : s.prevOf g = some p8) : runUsteps g (ustepsFrom .rd) s = sampleWhole g s := by
  rw [sampleWhole_selected hs hp, ustepsFrom, runUsteps, ustep, readStep_selected hs, andThen_next]
  iterate 4 rw [runUsteps_cons_ch (p8 := p8) (n8 := s.readGroup)]
  rw [runUsteps_latch (n8 := s.readGroup)]
  · refine congrArg Host.Outcome.next (State.ext_fields rfl rfl ?seq rfl rfl rfl rfl rfl)
    case seq => simp [hs]
  -- each micro-step stands at its position and finds its operands
  all_goals simp [hs, hp]

theorem ustepsFrom_rd_isChain (g : Group) :
    (ustepsFrom .rd).IsChain fun v w => nextSeq (.run g v) = .run g w := by
  simp [ustepsFrom]

theorem steps_six_eq_exec_sampleOf {g : Group} {s : State} {p8 : Raw} (hs : s.seq = .run g .rd)
    (hp : s.prevOf g = some p8) (idle : s.pending = []) : steps 6 s = exec (sampleOf g .rd) s := by
  calc steps 6 s = runUsteps g (ustepsFrom .rd) s := steps_eq_runUsteps (ustepsFrom_rd_isChain g) hs idle
    _ = sampleWhole g s := runUsteps_eq_sampleWhole hs hp
    _ = exec (sampleOf g .rd) s := (exec_sampleOf g .rd s).symm

/-! ### An iteration as four SAMPLEs -/

/-- `t` is inside the iteration that began in `s`, with the baselines `p` and the samples `x`: exactly the groups numbered
below `n` have taken their sample, and group `n` is next (R101). -/
structure SampledBelow (p x : Group → Raw) (rest : List Raw) (s : State) (n : Nat) (t : State) : Prop where
  seq : t.seq = .run (nextGroup^[n] .a) .rd
  counter : ∀ h c, t.counter h c =
    if (Group.id h).val < n then addDelta (s.counter h c) (channelDelta c (p h) (x h)) else s.counter h c
  prev : ∀ h, t.prevOf h = some (if (Group.id h).val < n then x h else p h)
  answers : t.answers = (roundAnswers x).drop n ++ rest
  draws : t.draws = s.draws + n
  reads : t.reads = s.reads
  pending : t.pending = []

/-- The sequencer goes through the groups in the order of their numbers (R97). -/
theorem iterate_nextGroup (g : Group) : nextGroup^[(Group.id g).val] .a = g := by cases g <;> rfl

theorem roundAnswers_drop (x : Group → Raw) (g : Group) :
    (roundAnswers x).drop (Group.id g).val = x g :: (roundAnswers x).drop ((Group.id g).val + 1) := by
  cases g <;> rfl

theorem exists_group_id_val {n : Nat} (lt : n < 4) : ∃ g, (Group.id g).val = n := by
  refine ⟨Group.ofId ⟨n, lt⟩, ?_⟩
  interval_cases n <;> rfl

theorem id_lt_succ_of_ne {g h : Group} (other : h ≠ g) :
    (Group.id h).val < (Group.id g).val + 1 ↔ (Group.id h).val < (Group.id g).val := by
  have apart : (Group.id h).val ≠ (Group.id g).val := mt group_id_val_inj.mp other
  omega

namespace SampledBelow

variable {p x : Group → Raw} {rest : List Raw} {s : State}

/-- The SAMPLE of the group that is next. -/
theorem after_sample {g : Group} {a : State} (d : SampledBelow p x rest s (Group.id g).val a) :
    ∃ t, steps 6 a = .next t ∧ SampledBelow p x rest s ((Group.id g).val + 1) t := by
  have hs : a.seq = .run g .rd := by rw [d.seq, iterate_nextGroup]
  have hp : a.prevOf g = some (p g) := by rw [d.prev, if_neg (lt_irrefl _)]
  have queue : a.answers = x g :: ((roundAnswers x).drop ((Group.id g).val + 1) ++ rest) := by
    rw [d.answers, roundAnswers_drop, List.cons_append]
  have sample : a.readGroup = x g := readGroup_cons queue
  obtain ⟨t, run, own, others, ownPrev, othersPrev, seq, reads, pending, draws, answers⟩ :=
    sampleDecodesThenKeepsTheSample g a (p g) hs hp
  refine ⟨t, (steps_six_eq_exec_sampleOf hs hp d.pending).trans run, ?_⟩
  refine ⟨?seq, fun h c => ?counter, fun h => ?prev, ?answers, ?draws, reads.trans d.reads, pending.trans d.pending⟩
  case seq => rw [seq, Function.iterate_succ_apply', iterate_nextGroup]
  case counter =>
    by_cases same : h = g
    · subst same
      rw [own, d.counter, sample, if_neg (lt_irrefl _), if_pos (Nat.lt_succ_self _)]
    · simp only [others h c same, d.counter, id_lt_succ_of_ne same]
  case prev =>
    by_cases same : h = g
    · subst same
      rw [ownPrev, sample, if_pos (Nat.lt_succ_self _)]
    · simp only [othersPrev h same, d.prev, id_lt_succ_of_ne same]
  case answers => rw [answers, queue, List.tail_cons]
  case draws => rw [draws, d.draws, Nat.add_assoc]

theorem after_groups (start : SampledBelow p x rest s 0 s) (n : Nat) (le : n ≤ 4) :
    ∃ t, steps (6 * n) s = .next t ∧ SampledBelow p x rest s n t := by
  induction n with
  | zero => exact ⟨s, steps_zero s, start⟩
  | succ n ih =>
    obtain ⟨a, before, d⟩ := ih (by omega)
    obtain ⟨g, rfl⟩ := exists_group_id_val le
    obtain ⟨t, last, d'⟩ := after_sample d
    exact ⟨t, by rw [Nat.mul_succ, steps_add, before, andThen_next, last], d'⟩

end SampledBelow

/-- Settles O51: 24 steps are the SAMPLEs of the four groups, each of its own six. -/
theorem iterationDecodesEveryChannelOnce : Obligations.IterationDecodesEveryChannelOnce := by
  intro s p x rest boundary idle baselines queue
  have start : SampledBelow p x rest s 0 s :=
    ⟨boundary, fun _ _ => rfl, baselines, queue, rfl, rfl, idle⟩
  obtain ⟨t, run, d⟩ := start.after_groups 4 le_rfl
  refine ⟨t, run, d.seq, fun g c => ?counter, fun g => ?prev, d.answers, d.draws, d.reads, d.pending⟩
  case counter => rw [d.counter, if_pos (Group.id g).isLt]
  case prev => rw [d.prev, if_pos (Group.id g).isLt]

end Sys2Proof.Machine
end

section
/-! PROOFS. Family 70_reset_and_hazards: from the state any RESET answers to the first iteration boundary (R97, R98, R124,
R126). -/

namespace Sys2Proof.Machine

/-- P_RESET: every counter is 0 (R23, R124). -/
theorem PReset.counter {s : State} (h : PReset s) (g : Group) (c : Chan) : s.counter g c = 0 := by
  obtain ⟨ctr, -, -, -⟩ := h.fields
  exact (State.counter_congr State.reset s ctr g c).trans (reset_counter g c)

/-- The sequencer goes through the seed positions in the order of the groups' numbers (R97). -/
theorem iterate_nextSeq_seedA (g : Group) : nextSeq^[(Group.id g).val] (.seed .a) = .seed g := by cases g <;> rfl

/-- `t` is inside the seed phase that began in `s`, with the seeds `x`: exactly the groups numbered below `n` have their
baseline, each by one read, and no counter has changed (R98). -/
structure SeededBelow (x : Group → Raw) (rest : List Raw) (s : State) (n : Nat) (t : State) : Prop where
  seq : t.seq = nextSeq^[n] (.seed .a)
  ctr : t.ctr = s.ctr
  prev : ∀ h, t.prevOf h = if (Group.id h).val < n then some (x h) else s.prevOf h
  answers : t.answers = (roundAnswers x).drop n ++ rest
  draws : t.draws = s.draws + n
  pending : t.pending = []

namespace SeededBelow

variable {x : Group → Raw} {rest : List Raw} {s : State}

/-- The SEED of the group that is next. -/
theorem after_seed {g : Group} {a : State} (d : SeededBelow x rest s (Group.id g).val a) :
    ∃ t, step a = .next t ∧ SeededBelow x rest s ((Group.id g).val + 1) t := by
  have hs : a.seq = .seed g := d.seq.trans (iterate_nextSeq_seedA g)
  have queue : a.answers = x g :: ((roundAnswers x).drop ((Group.id g).val + 1) ++ rest) := by
    rw [d.answers, roundAnswers_drop, List.cons_append]
  have seed : a.readGroup = x g := readGroup_cons queue
  refine ⟨_, (step_seed d.pending hs).trans (seedStep_selected hs), ?_⟩
  refine ⟨?seq, d.ctr, fun h => ?prev, congrArg List.tail queue, congrArg (· + 1) d.draws, d.pending⟩
  case seq => rw [Function.iterate_succ_apply', ← d.seq]; rfl
  case prev =>
    rw [State.prevOf_advance, State.prevOf_setPrev, State.prevOf_answered, seed]
    by_cases same : h = g
    · subst same
      rw [if_pos rfl, if_pos (Nat.lt_succ_self _)]
    · simp only [if_neg (Ne.symm same), d.prev, id_lt_succ_of_ne same]

theorem after_groups (start : SeededBelow x rest s 0 s) (n : Nat) (le : n ≤ 4) :
    ∃ t, steps n s = .next t ∧ SeededBelow x rest s n t := by
  induction n with
  | zero => exact ⟨s, steps_zero s, start⟩
  | succ n ih =>
    obtain ⟨a, before, d⟩ := ih (by omega)
    obtain ⟨g, rfl⟩ := exists_group_id_val le
    obtain ⟨t, last, d'⟩ := after_seed d
    exact ⟨t, steps_then_step before last, d'⟩

end SeededBelow

/-- Four steps from the state any RESET answers, with nothing pending, seed all four groups (R126). -/
theorem PReset.exists_seeded {t : State} {x : Group → Raw} {rest : List Raw} (reset : PReset t) (idle : t.pending = [])
    (queue : t.answers = roundAnswers x ++ rest) : ∃ u, steps 4 t = .next u ∧ SeededBelow x rest t 4 u := by
  obtain ⟨-, -, -, seq⟩ := reset.fields
  have start : SeededBelow x rest t 0 t := ⟨seq, rfl, fun _ => rfl, queue, rfl, idle⟩
  exact start.after_groups 4 le_rfl

/-- Settles O50: the four steps are the four SEEDs, and a SEED writes no counter. -/
theorem bootSeedsAndCountsNothing : Obligations.BootSeedsAndCountsNothing := by
  intro t x rest reset idle queue
  obtain ⟨u, run, d⟩ := reset.exists_seeded idle queue
  have boundary : u.seq = .run .a .rd := d.seq
  have prev : ∀ g, u.prevOf g = some (x g) := fun g => (d.prev g).trans (if_pos (Group.id g).isLt)
  refine ⟨u, run, fun g c => ?counter, prev, boundary, ⟨?phase, fun g => ?baseline⟩, d.answers⟩
  case counter => exact (State.counter_congr t u d.ctr g c).trans (reset.counter g c)
  case phase => rw [boundary]; rfl
  case baseline => rw [prev g]; rfl

end Sys2Proof.Machine
end

section
/-! PROOFS. Family other, the words (30_encoding.md): what each format's decoder accepts is its operation's own word, and
every pattern a format uses is accepted. -/

namespace Sys2Proof.Machine

/-! ### From an operation to its word and back -/

/-- The per-instruction family EncodeDecode, for every operation. -/
theorem encodeDecode_statement (i : Instr) : Laws.EncodeDecode.Statement i := by
  open Laws.EncodeDecode in
  cases i with
  | stay00 => exact stay00
  | bwd00_01 => exact bwd00_01
  | fwd00_10 => exact fwd00_10
  | amb00_11 => exact amb00_11
  | fwd01_00 => exact fwd01_00
  | stay01 => exact stay01
  | amb01_10 => exact amb01_10
  | bwd01_11 => exact bwd01_11
  | bwd10_00 => exact bwd10_00
  | amb10_01 => exact amb10_01
  | stay10 => exact stay10
  | fwd10_11 => exact fwd10_11
  | amb11_00 => exact amb11_00
  | fwd11_01 => exact fwd11_01
  | bwd11_10 => exact bwd11_10
  | stay11 => exact stay11
  | hold => exact hold
  | inc => exact inc
  | dec => exact dec
  | seedA => exact seedA
  | seedB => exact seedB
  | seedC => exact seedC
  | seedD => exact seedD
  | sampleA u => exact sampleA u
  | sampleB u => exact sampleB u
  | sampleC u => exact sampleC u
  | sampleD u => exact sampleD u
  | ustepRd g => exact ustepRd g
  | ustepCh0 g => exact ustepCh0 g
  | ustepCh1 g => exact ustepCh1 g
  | ustepCh2 g => exact ustepCh2 g
  | ustepCh3 g => exact ustepCh3 g
  | ustepLatch g => exact ustepLatch g
  | rdctr g c => exact rdctr g c
  | reset => exact reset

@[simp] theorem decode_encode (i : Instr) : decode (encode i) = .ok i := (encodeDecode_statement i).2.2

theorem encode_wf (i : Instr) : (encode i).wf = true := (encodeDecode_statement i).2.1

/-! ### From a word to its operation and back -/

@[simp] theorem group_id_ofId (k : Fin 4) : Group.id (Group.ofId k) = k := by revert k; decide

theorem code_of_ofCode {n : Nat} {u : UStep} (h : UStep.ofCode n = some u) : u.code = n := by
  unfold UStep.ofCode at h
  split at h <;> cases h <;> rfl

/-- The USTEP field numbers six micro-steps (R55). -/
theorem ofCode_isSome {n : Nat} (h : n < 6) : ∃ u, UStep.ofCode n = some u := by
  interval_cases n <;> exact ⟨_, rfl⟩

theorem encode_seedOf (g : Group) : encode (seedOf g) = ⟨.seqOp, seqWord 0 g 0⟩ := by cases g <;> rfl

theorem encode_sampleOf (g : Group) (u : UStep) : encode (sampleOf g u) = ⟨.seqOp, seqWord 1 g u.code⟩ := by
  cases g <;> rfl

theorem encode_ustepOf (g : Group) (u : UStep) : encode (ustepOf g u) = ⟨.seqUstep, seqWord 1 g u.code⟩ := by
  rcases u with _ | c | _
  · rfl
  · fin_cases c <;> rfl
  · rfl

/-- A 6-bit sequencer word is made of its three fields (R55). -/
theorem seqWord_fields {w phase ustep : Nat} (hp : w / 32 = phase) (hu : ustep = w % 8) :
    seqWord phase (Group.ofId (gselField w)) ustep = BitVec.ofNat 8 w := by
  have fields : 32 * phase + 8 * (w / 8 % 4) + ustep = w := by omega
  rw [seqWord, group_id_ofId]
  exact congrArg (BitVec.ofNat 8) fields

theorem encode_of_decodeTc {w : Nat} {i : Instr} (h : decodeTc w = .ok i) : encode i = ⟨.tc, BitVec.ofNat 8 w⟩ := by
  unfold decodeTc at h
  split at h <;> cases h <;> rfl

theorem encode_of_decodeDelta {w : Nat} {i : Instr} (h : decodeDelta w = .ok i) :
    encode i = ⟨.delta, BitVec.ofNat 8 w⟩ := by
  unfold decodeDelta at h
  split at h <;> cases h <;> rfl

theorem encode_of_decodeSeqOp {w : Nat} {i : Instr} (h : decodeSeqOp w = .ok i) :
    encode i = ⟨.seqOp, BitVec.ofNat 8 w⟩ := by
  unfold decodeSeqOp at h
  split_ifs at h with wide phase ustep
  · cases h
    rw [encode_seedOf, seqWord_fields phase ustep.symm]
  · split at h
    · rename_i u hu
      cases h
      rw [encode_sampleOf, seqWord_fields (by omega) (code_of_ofCode hu)]
    · cases h

theorem encode_of_decodeSeqUstep {w : Nat} {i : Instr} (h : decodeSeqUstep w = .ok i) :
    encode i = ⟨.seqUstep, BitVec.ofNat 8 w⟩ := by
  unfold decodeSeqUstep at h
  split_ifs at h with wide phase
  split at h
  · rename_i u hu
    cases h
    rw [encode_ustepOf, seqWord_fields (by omega) (code_of_ofCode hu)]
  · cases h

theorem encode_of_decodeCtrAddr {w : Nat} {i : Instr} (h : decodeCtrAddr w = .ok i) :
    encode i = ⟨.ctrAddr, BitVec.ofNat 8 w⟩ := by
  unfold decodeCtrAddr at h
  split_ifs at h with wide
  cases h
  have fields : 4 * (w / 4 % 4) + w % 4 = w := by omega
  rw [encode, group_id_ofId]
  exact congrArg (fun n => Request.mk .ctrAddr (BitVec.ofNat 8 n)) fields

theorem encode_of_decodeRst {w : Nat} {i : Instr} (h : decodeRst w = .ok i) : encode i = ⟨.rst, BitVec.ofNat 8 w⟩ := by
  unfold decodeRst at h
  split at h <;> cases h
  rfl

theorem encode_of_decode {r : Request} {i : Instr} (h : decode r = .ok i) : encode i = r := by
  obtain ⟨fmt, bits⟩ := r
  have word : BitVec.ofNat 8 bits.toNat = bits := BitVec.ofNat_toNat 8 bits
  rw [← word]
  cases fmt with
  | tc => exact encode_of_decodeTc h
  | delta => exact encode_of_decodeDelta h
  | seqOp => exact encode_of_decodeSeqOp h
  | seqUstep => exact encode_of_decodeSeqUstep h
  | ctrAddr => exact encode_of_decodeCtrAddr h
  | rst => exact encode_of_decodeRst h

/-- Settles O14: each format's decoder answers only operations whose word it was given, and the word of each operation
decodes to it. -/
theorem decodeInvertsEncode : Obligations.DecodeInvertsEncode := by
  refine fun r i => ⟨fun h => (encode_of_decode h).symm, fun h => ?_⟩
  rw [h, decode_encode]

/-! ### The patterns in use -/

theorem decodeTc_of_wf {w : Nat} (hw : w < 16) : ∃ i, decodeTc w = .ok i := by
  interval_cases w <;> exact ⟨_, rfl⟩

theorem decodeDelta_of_wf {w : Nat} (hw : w < 4) (used : w ≠ 2) : ∃ i, decodeDelta w = .ok i := by
  obtain rfl | rfl | rfl : w = 0 ∨ w = 1 ∨ w = 3 := by omega
  · exact ⟨_, rfl⟩
  · exact ⟨_, rfl⟩
  · exact ⟨_, rfl⟩

theorem decodeSeqOp_of_seed {w : Nat} (hw : w < 64) (phase : w / 32 = 0) (ustep : w % 8 = 0) :
    ∃ i, decodeSeqOp w = .ok i := by
  simp [decodeSeqOp, Nat.not_le.mpr hw, phase, ustep]

theorem decodeSeqOp_of_sample {w : Nat} (hw : w < 64) (phase : w / 32 ≠ 0) (ustep : w % 8 < 6) :
    ∃ i, decodeSeqOp w = .ok i := by
  obtain ⟨u, hu⟩ := ofCode_isSome ustep
  simp [decodeSeqOp, Nat.not_le.mpr hw, phase, hu]

theorem decodeSeqUstep_of_wf {w : Nat} (hw : w < 64) (phase : w / 32 = 1) (ustep : w % 8 < 6) :
    ∃ i, decodeSeqUstep w = .ok i := by
  obtain ⟨u, hu⟩ := ofCode_isSome ustep
  simp [decodeSeqUstep, Nat.not_le.mpr hw, phase, hu]

theorem decodeCtrAddr_of_wf {w : Nat} (hw : w < 16) : ∃ i, decodeCtrAddr w = .ok i := by
  simp [decodeCtrAddr, Nat.not_le.mpr hw]

theorem decode_of_wf {r : Request} (h : r.wf = true) : ∃ i, decode r = .ok i := by
  obtain ⟨fmt, bits⟩ := r
  cases fmt with
  | tc => exact decodeTc_of_wf (by simpa [Request.wf] using h)
  | delta =>
    obtain ⟨width, used⟩ : bits.toNat < 4 ∧ bits.toNat ≠ 2 := by simpa [Request.wf] using h
    exact decodeDelta_of_wf width used
  | seqOp =>
    simp only [Request.wf, Bool.and_eq_true, decide_eq_true_eq] at h
    obtain ⟨width, fields⟩ := h
    split_ifs at fields with phase
    · exact decodeSeqOp_of_seed width phase (eq_of_beq fields)
    · exact decodeSeqOp_of_sample width phase (of_decide_eq_true fields)
  | seqUstep =>
    simp only [Request.wf, Bool.and_eq_true, decide_eq_true_eq, beq_iff_eq] at h
    obtain ⟨⟨width, phase⟩, ustep⟩ := h
    exact decodeSeqUstep_of_wf width phase ustep
  | ctrAddr => exact decodeCtrAddr_of_wf (by simpa [Request.wf] using h)
  | rst =>
    have one : bits.toNat = 1 := by simpa [Request.wf] using h
    exact ⟨.reset, congrArg decodeRst one⟩

/-- Settles O15: a word that decodes is its operation's word, so of a pattern in use; and each format's decoder has an
operation for every such pattern. -/
theorem onlyUsedPatternsDecode : Obligations.OnlyUsedPatternsDecode := by
  refine fun r => ⟨fun ⟨i, h⟩ => ?_, decode_of_wf⟩
  rw [← encode_of_decode h]
  exact encode_wf i

/-- Settles O13: each word is the encoding of its operation. -/
theorem writtenOutWordsDecode : Obligations.WrittenOutWordsDecode :=
  ⟨decode_encode .bwd00_01, decode_encode .fwd10_11, decode_encode .dec, decode_encode .seedC,
    decode_encode (.sampleC .rd), decode_encode (.ustepCh2 .b), decode_encode (.rdctr .b 2), decode_encode .reset⟩

end Sys2Proof.Machine
end

section
/-! PROOFS. Family other, the table and the counter words: the laws of the decode table (R61, R81 to R83, D14), what a
sequence of deltas adds up to (R104, R127, R129, R130), and the integer a counter word stands for (R14, R89, R132). -/

namespace Sys2Proof.Machine

/-! ### The table -/

/-- Settles O1, by evaluating the sixteen entries in each of the three forms. -/
theorem tableHoldsTheListedEntries : Obligations.TableHoldsTheListedEntries := by
  refine ⟨?list, ?matrix, ?packed⟩
  case list => decide
  case matrix => decide
  case packed => decide

theorem lut_eq_lutGate (p q : Pair) : lut (tcOf p q) = lutGate p q := by
  revert p q; decide

theorem deltaBits_lut_zero (p q : Pair) : (deltaBits (lut (tcOf p q))).getLsbD 0 = moved p q := by
  revert p q; decide

theorem deltaBits_lut_one (p q : Pair) : (deltaBits (lut (tcOf p q))).getLsbD 1 = (moved p q && !up p q) := by
  revert p q; decide

theorem other_gate_of_moved (p q : Pair) : moved p q = true → (p.getLsbD 1 ^^ q.getLsbD 0) = !up p q := by
  revert p q; decide

/-- Settles O5, gate by gate. -/
theorem gatesComputeTheTable : Obligations.GatesComputeTheTable := by
  refine fun p q => ⟨lut_eq_lutGate p q, ?moved, rfl, deltaBits_lut_zero p q, deltaBits_lut_one p q,
    other_gate_of_moved p q⟩
  case moved => simp only [moved, Bool.xor_assoc]

theorem deltaVal_lut_swap (p q : Pair) : deltaVal (lut (tcOf q p)) = -deltaVal (lut (tcOf p q)) := by
  revert p q; decide

/-- Settles O6: the swap negates the entry, and sends each of the sixteen codes where the list says. -/
theorem tableIsAntisymmetric : Obligations.TableIsAntisymmetric := by
  refine ⟨deltaVal_lut_swap, ?codes⟩
  case codes => decide

/-- Settles O7: each rewiring runs through the forward cycle the other way; the sixteen pairs of pairs are evaluated. -/
theorem rewiredLinesCountTheOtherWay : Obligations.RewiredLinesCountTheOtherWay := by
  refine fun p q => ⟨?swap, ?invertLo, ?invertHi⟩
  case swap => revert p q; decide
  case invertLo => revert p q; decide
  case invertHi => revert p q; decide

/-! ### Positions along the forward cycle -/

theorem pairAt_pos (p : Pair) : pairAt (pos p) = p := by
  revert p; decide

/-- `pairAt` reads its number modulo four only. -/
theorem pairAt_emod (j : Int) : pairAt (j % 4) = pairAt j := by
  simp [pairAt]

theorem pairAt_congr {i j : Int} (h : i % 4 = j % 4) : pairAt i = pairAt j := by
  rw [← pairAt_emod i, h, pairAt_emod]

/-- The remainder modulo four, case by case. -/
theorem emod_four_cases (j : Int) : j % 4 = 0 ∨ j % 4 = 1 ∨ j % 4 = 2 ∨ j % 4 = 3 := by omega

theorem pos_pairAt (j : Int) : pos (pairAt j) = j % 4 := by
  rw [← pairAt_emod]
  obtain h | h | h | h := emod_four_cases j <;> rw [h] <;> decide

theorem pairAt_succ (j : Int) : pairAt (j + 1) = forward (pairAt j) := by
  rw [← pairAt_emod j, ← pairAt_emod (j + 1), Int.add_emod]
  obtain h | h | h | h := emod_four_cases j <;> rw [h] <;> decide

theorem lut_eq_deltaOfSteps (p q : Pair) : lut (tcOf p q) = deltaOfSteps (pos q - pos p) := by
  revert p q; decide

theorem deltaOfSteps_congr {i j : Int} (h : i % 4 = j % 4) : deltaOfSteps i = deltaOfSteps j := by
  rw [deltaOfSteps, deltaOfSteps, h]

/-- `j` single steps between two samples are decoded as `j` modulo four (R81, R129). -/
theorem lut_steps (p : Pair) (j : Int) : lut (tcOf p (pairAt (pos p + j))) = deltaOfSteps j := by
  rw [lut_eq_deltaOfSteps, pos_pairAt]
  exact deltaOfSteps_congr (by omega)

theorem deltaVal_deltaOfSteps (j : Int) :
    deltaVal (deltaOfSteps j) = if j % 4 = 1 then 1 else if j % 4 = 3 then -1 else 0 := by
  unfold deltaOfSteps
  split_ifs <;> rfl

/-- Only a single step, or none, is decoded as what happened (R129). -/
theorem deltaVal_deltaOfSteps_eq_self {j : Int} : deltaVal (deltaOfSteps j) = j ↔ j = -1 ∨ j = 0 ∨ j = 1 := by
  rw [deltaVal_deltaOfSteps]
  split_ifs <;> omega

/-- Settles O4: the table sees the distance of the two pairs modulo four. -/
theorem stepsAreDecodedModuloFour : Obligations.StepsAreDecodedModuloFour := by
  refine ⟨pairAt_pos, pairAt_succ, ?numbers, lut_eq_deltaOfSteps, fun p j => ?steps⟩
  case numbers => decide
  case steps =>
    rw [lut_steps]
    exact ⟨deltaVal_deltaOfSteps j, deltaVal_deltaOfSteps_eq_self⟩

/-! ### Sums of deltas -/

/-- Where a transition is not AMB, its delta is the distance along the cycle modulo four (R81). -/
theorem deltaVal_lut_emod_four (p q : Pair) (h : classOf p q ≠ .amb) :
    (deltaVal (lut (tcOf p q)) - (pos q - pos p)) % 4 = 0 := by
  revert p q; decide

/-- Settles O56, by induction on the iterations: each transition's delta is its own distance modulo four. -/
theorem deltaSumTracksThePairModuloFour : Obligations.DeltaSumTracksThePairModuloFour := by
  intro n x g c plain
  induction n with
  | zero => simp [deltaSum]
  | succ n ih =>
    have before := ih fun i lt => plain i (lt.trans (Nat.lt_succ_self n))
    have last := deltaVal_lut_emod_four _ _ (plain n (Nat.lt_succ_self n))
    rw [deltaSum, channelDelta]
    omega

/-- A single step between two samples that both show the encoder is counted truly (R129). -/
theorem channelDelta_of_single_step {c : Chan} {p8 n8 : Raw} {i j : Int} (hp : pairOf p8 c = pairAt i)
    (hn : pairOf n8 c = pairAt j) (step : j - i = -1 ∨ j - i = 0 ∨ j - i = 1) :
    deltaVal (channelDelta c p8 n8) = j - i := by
  have apart : pairAt j = pairAt (pos (pairAt i) + (j - i)) := by
    rw [pos_pairAt]
    exact pairAt_congr (by omega)
  rw [channelDelta, hp, hn, apart, lut_steps]
  exact deltaVal_deltaOfSteps_eq_self.mpr step

section
variable {x : Samples} {y : Nat → Int} {g : Group} {c : Chan} {n : Nat}

/-- Under P_RATE every delta from a sample that shows the encoder is the true step (R129). -/
theorem PRate.delta (rate : PRate x y g c n) {i : Nat} (lt : i < n) (shown : pairOf (x i g) c = pairAt (y i)) :
    deltaVal (channelDelta c (x i g) (x (i + 1) g)) = y (i + 1) - y i := by
  obtain ⟨step, next⟩ := rate i lt
  exact channelDelta_of_single_step shown next step

theorem PRate.mono (rate : PRate x y g c (n + 1)) : PRate x y g c n :=
  fun i lt => rate i (lt.trans (Nat.lt_succ_self n))

theorem deltaSum_of_setup (rate : PRate x y g c n) (setup : PSetup x y g c) : deltaSum x g c n = y n - y 0 := by
  induction n with
  | zero => simp [deltaSum]
  | succ n ih =>
    have shown : pairOf (x n g) c = pairAt (y n) := by
      cases n with
      | zero => exact setup
      | succ m => exact (rate m (by omega)).2
    rw [deltaSum, ih rate.mono, rate.delta (Nat.lt_succ_self n) shown]
    omega

/-- Without P_SETUP only the first delta is in doubt: it is the one against the seed read (R127). -/
theorem deltaSum_without_setup (rate : PRate x y g c (n + 1)) :
    deltaSum x g c (n + 1) = y (n + 1) - y 1 + deltaVal (channelDelta c (x 0 g) (x 1 g)) := by
  induction n with
  | zero => simp [deltaSum]
  | succ n ih =>
    have shown : pairOf (x (n + 1) g) c = pairAt (y (n + 1)) := (rate n (by omega)).2
    rw [deltaSum, ih rate.mono, rate.delta (Nat.lt_succ_self _) shown]
    omega

end

/-- Settles O57: with P_SETUP every delta is the true step, without it every one but the first. -/
theorem slowChannelIsCountedTruly : Obligations.SlowChannelIsCountedTruly := by
  refine fun n x y g c rate => ⟨deltaSum_of_setup rate, fun first => ?_⟩
  obtain ⟨m, rfl⟩ := Nat.exists_eq_add_of_le' first
  exact ⟨_, deltaSum_without_setup rate⟩

/-! ### Operands -/

theorem getLsbD_pairOf {x : Raw} {c : Chan} {i : Nat} (h : i < 2) : (pairOf x c).getLsbD i = x.getLsbD (2 * c.val + i) := by
  simp [pairOf, h]

theorem toNat_pairOf (x : Raw) (c : Chan) : (pairOf x c).toNat = x.toNat / 4 ^ c.val % 4 := by
  rw [pairOf, BitVec.extractLsb'_toNat, Nat.shiftRight_eq_div_pow, pow_mul]
  norm_num

theorem toNat_tcOf (p q : Pair) : (tcOf p q).toNat = 4 * p.toNat + q.toNat := by
  revert p q; decide

theorem getLsbD_tcOf_prev {p q : Pair} {i : Nat} : (tcOf p q).getLsbD (i + 2) = p.getLsbD i := by
  have append : (tcOf p q).getLsbD (i + 2) = _ := BitVec.getLsbD_append
  simpa using append

theorem getLsbD_tcOf_cur {p q : Pair} {i : Nat} (h : i < 2) : (tcOf p q).getLsbD i = q.getLsbD i := by
  have append : (tcOf p q).getLsbD i = _ := BitVec.getLsbD_append
  simpa [h] using append

/-- Settles O8: the slices and the concatenation bit by bit. -/
theorem operandsAreAssembledBitForBit : Obligations.OperandsAreAssembledBitForBit := by
  refine ⟨fun x c => ⟨getLsbD_pairOf one_lt_two, getLsbD_pairOf two_pos, toNat_pairOf x c⟩,
    fun p q => ⟨getLsbD_tcOf_prev, getLsbD_tcOf_prev, getLsbD_tcOf_cur one_lt_two, getLsbD_tcOf_cur two_pos, toNat_tcOf p q⟩,
    deltaWord_zero, deltaWord_plus, deltaWord_minus⟩

/-- Settles O12: the address is the flat number, which is injective and reaches every counter. -/
theorem counterAddressesNameEachChannelOnce : Obligations.CounterAddressesNameEachChannelOnce := by
  refine ⟨flat_val, fun g h c d same => flat_inj.mp (congrArg Fin.val same), ?onto, fun _ _ _ => rfl⟩
  case onto => decide

/-! ### Counter words -/

theorem val_eq (w : CtrWord) :
    val w = if w.toNat < 2147483648 then (w.toNat : Int) else w.toNat - 4294967296 := rfl

theorem inRange_val (w : CtrWord) : InRange (val w) := by
  have lt := w.isLt
  rw [InRange, val_eq]
  split_ifs <;> omega

theorem InRange.val_word {i : Int} (h : InRange i) : val (word i) = i := Machine.val_word h.1 h.2

/-- Bit 31 is the sign (R14). -/
theorem getLsbD_sign (w : CtrWord) : w.getLsbD 31 = decide (2147483648 ≤ w.toNat) := by
  have msb := BitVec.msb_eq_getLsbD_last w
  rw [BitVec.msb_eq_decide] at msb
  exact msb.symm

theorem val_eq_sign_and_rest (w : CtrWord) :
    val w = -2147483648 * (if w.getLsbD 31 then 1 else 0) + ((w.toNat % 2147483648 : Nat) : Int) := by
  have lt := w.isLt
  simp only [val_eq, getLsbD_sign, decide_eq_true_eq]
  split_ifs <;> omega

/-- Settles O9: `val` and `word` undo each other in the range, and bit 31 carries the weight -2^31. -/
theorem counterWordIsTwosComplement : Obligations.CounterWordIsTwosComplement :=
  ⟨val_eq, fun w => ⟨inRange_val w, word_val w⟩, fun _ h => h.val_word, val_eq_sign_and_rest⟩

theorem val_addDelta {w : CtrWord} {d : Delta} (h : InRange (val w + deltaVal d)) :
    val (addDelta w d) = val w + deltaVal d := by
  rw [addDelta_eq_word, h.val_word]

theorem toNat_addDelta (w : CtrWord) (d : Delta) :
    ((addDelta w d).toNat : Int) = (w.toNat + deltaVal d) % 4294967296 := by
  rw [addDelta_eq_word, word, BitVec.toNat_ofInt, val_eq]
  split_ifs <;> omega

/-- Settles O10: the new word is the word of the old integer plus the delta, exact within the range. -/
theorem counterWrapsAtTheEnds : Obligations.CounterWrapsAtTheEnds := by
  refine ⟨fun w d => val_addDelta, fun w top => ?top, fun w bottom => ?bottom, toNat_addDelta⟩
  case top => rw [addDelta_eq_word, top]; decide
  case bottom => rw [addDelta_eq_word, bottom]; decide

/-- Settles O11: the difference of two words is the word of the difference (R132). -/
theorem snapshotDifferenceSurvivesWrap : Obligations.SnapshotDifferenceSurvivesWrap := by
  intro i j h
  have difference : word j = word (j - i) + word i := by rw [← word_add, sub_add_cancel]
  rw [difference, BitVec.add_sub_cancel, h.val_word]

/-- Two deltas that cancel leave the word as it was. -/
theorem addDelta_addDelta_of_neg {d e : Delta} (h : deltaVal e = -deltaVal d) (w : CtrWord) :
    addDelta (addDelta w d) e = w := by
  rw [addDelta, addDelta, deltaWord_eq_word, deltaWord_eq_word, add_assoc, ← word_add, h, add_neg_cancel]
  exact BitVec.add_zero w

/-- Settles O58: a pulse is a transition and its reverse, whose deltas cancel. -/
theorem pulsesCancel : Obligations.PulsesCancel := by
  refine ⟨fun p q w => addDelta_addDelta_of_neg (deltaVal_lut_swap p q) w, ?double, ?disturbance⟩
  case double => decide
  case disturbance => decide

end Sys2Proof.Machine
end

section
/-! PROOFS. Family other, the operations: where they are refused (R59, R106) and where they fault (R24); the micro-steps and
SAMPLE.g in its forms (R96, R99, R100); a transition code and a counter effect as the channel decode in progress (R57);
snapshots and RESET (R107, R124). -/

namespace Sys2Proof.Machine

/-! ### Refusals -/

theorem seedStep_unselected {g : Group} {s : State} (h : s.seq ≠ .seed g) : seedStep g s = .refused .notSelected := by
  rw [seedStep, if_neg h]

theorem ustep_unselected {g : Group} {u : UStep} {s : State} (h : s.seq ≠ .run g u) :
    ustep g u s = .refused .notSelected := by
  cases u with
  | rd => exact if_neg h
  | ch c => exact if_neg h
  | latch => exact if_neg h

theorem sampleFrom_of_ne_rd {g : Group} {u : UStep} (h : u ≠ .rd) (s : State) :
    sampleFrom g u s = runUsteps g (ustepsFrom u) s := by
  cases u with
  | rd => exact absurd rfl h
  | ch c => rfl
  | latch => rfl

/-- A SAMPLE carried on from `u` begins with `u`. -/
theorem ustepsFrom_eq_cons (u : UStep) : ∃ us, ustepsFrom u = u :: us := by
  rcases u with _ | c | _
  · exact ⟨_, rfl⟩
  · fin_cases c <;> exact ⟨_, rfl⟩
  · exact ⟨_, rfl⟩

theorem sampleFrom_unselected {g : Group} {u : UStep} {s : State} (h : s.seq ≠ .run g u) :
    sampleFrom g u s = .refused .notSelected := by
  by_cases hu : u = .rd
  · subst hu
    exact if_neg h
  · obtain ⟨us, first⟩ := ustepsFrom_eq_cons u
    rw [sampleFrom_of_ne_rd hu, first, runUsteps, ustep_unselected h]
    rfl

/-- Settles O39: each of CORE's operations first looks at the position. -/
theorem unselectedOperationsAreRefused : Obligations.UnselectedOperationsAreRefused := by
  refine fun s => ⟨fun g h => ?seed, fun g u h => ?sample, fun g u h => ?micro⟩
  case seed => rw [exec_seedOf, seedStep_unselected h]
  case sample => rw [exec_sampleOf, sampleFrom_unselected h]
  case micro => rw [exec_ustepOf, ustep_unselected h]

theorem atChannel_unselected {s : State} (h : ∀ g c, s.seq ≠ .run g (.ch c)) (k : Group → Chan → Pair → Pair → Result) :
    atChannel s k = .refused .notSelected := by
  unfold atChannel
  split
  · exact absurd ‹_› (h _ _)
  · rfl
  · rfl
  · rfl

theorem atChannel_selected {s : State} {g : Group} {c : Chan} {p8 n8 : Raw} (hs : s.seq = .run g (.ch c))
    (hp : s.prevOf g = some p8) (hn : s.new = some n8) (k : Group → Chan → Pair → Pair → Result) :
    atChannel s k = k g c (pairOf p8 c) (pairOf n8 c) := by
  rw [atChannel_run k hs, withPairs_some _ hp hn]

theorem transition_other_code {tc : TransCode} (effect : Group → Chan → State → State) {s : State} {g : Group} {c : Chan}
    {p8 n8 : Raw} (hs : s.seq = .run g (.ch c)) (hp : s.prevOf g = some p8) (hn : s.new = some n8)
    (ht : tcOf (pairOf p8 c) (pairOf n8 c) ≠ tc) : transition tc effect s = .refused .notSelected := by
  rw [transition, atChannel_selected hs hp hn, if_neg ht]

theorem countEffect_other_delta {d : Delta} (effect : Group → Chan → State → State) {s : State} {g : Group} {c : Chan}
    {p8 n8 : Raw} (hs : s.seq = .run g (.ch c)) (hp : s.prevOf g = some p8) (hn : s.new = some n8)
    (hd : lut (tcOf (pairOf p8 c) (pairOf n8 c)) ≠ d) : countEffect d effect s = .refused .notSelected := by
  rw [countEffect, atChannel_selected hs hp hn, if_neg hd]

/-! ### The rows of formats TC and DELTA -/

/-- The effect of each delta (R86 to R88). -/
def effectOf : Delta → Group → Chan → State → State
  | .zero => effectHold
  | .plus => effectInc
  | .minus => effectDec

/-- CHDEC is the effect of the delta the table gives (R85). -/
theorem chdec_eq_effectOf (g : Group) (c : Chan) (p q : Pair) (s : State) :
    chdec g c p q s = effectOf (lut (tcOf p q)) g c s := by
  cases e : lut (tcOf p q) with
  | zero => exact chdec_hold s e
  | plus => exact chdec_inc s e
  | minus => exact chdec_dec s e

/-- The sixteen rows of format TC with their codes. -/
def tcRows : List (Instr × TransCode) := fwdRows ++ bwdRows ++ stayRows ++ ambRows

/-- The three rows of format DELTA with their deltas. -/
def deltaRows : List (Instr × Delta) := [(.hold, .zero), (.inc, .plus), (.dec, .minus)]

/-- Each row of format TC is its code with the effect of its table entry. -/
theorem exec_tcRows : ∀ row ∈ tcRows, exec row.1 = transition row.2 (effectOf (lut row.2)) := by
  intro row mem
  rw [tcRows, List.append_assoc, List.mem_append, List.mem_append] at mem
  obtain (fwd | bwd) | hold := mem
  · rw [exec_fwdRows row fwd, lut_fwdRows row fwd]; rfl
  · rw [exec_bwdRows row bwd, lut_bwdRows row bwd]; rfl
  · rw [exec_holdRows row hold, lut_holdRows row hold]; rfl

theorem exec_deltaRows : ∀ row ∈ deltaRows, exec row.1 = countEffect row.2 (effectOf row.2) := by
  simp only [deltaRows, List.forall_mem_cons]
  exact ⟨rfl, rfl, rfl, by simp⟩

/-- Settles O40: a row is refused where no channel is being decoded, and where the operands give another code or delta. -/
theorem unselectedCodesAreRefused : Obligations.UnselectedCodesAreRefused := by
  refine ⟨fun row mem s => ?codes, fun row mem s => ?effects⟩
  case codes =>
    rw [exec_tcRows row mem]
    exact ⟨fun away => atChannel_unselected away _, fun g c p8 n8 hs hp hn ht => transition_other_code _ hs hp hn ht⟩
  case effects =>
    rw [exec_deltaRows row mem]
    exact ⟨fun away => atChannel_unselected away _, fun g c p8 n8 hs hp hn hd => countEffect_other_delta _ hs hp hn hd⟩

/-- Every code has its row, and the code as a word of format TC decodes to it (R63 to R78). -/
theorem exists_tcRow (tc : TransCode) : ∃ row ∈ tcRows, row.2 = tc ∧ encode row.1 = ⟨.tc, tc.zeroExtend 8⟩ := by
  revert tc; decide

theorem exists_deltaRow (d : Delta) : ∃ row ∈ deltaRows, row.2 = d ∧ encode row.1 = ⟨.delta, (deltaBits d).zeroExtend 8⟩ := by
  cases d <;> decide

/-- Settles O38: the step is CHc, and its CHDEC is the effect of the row that the code, or the delta, names. -/
theorem channelStepIsItsTransitionCode : Obligations.ChannelStepIsItsTransitionCode := by
  intro s g c p8 n8 idle hs hp hn
  have run : step s = .next (effectOf (lut (tcOf (pairOf p8 c) (pairOf n8 c))) g c s).advance := by
    rw [step_run idle hs, ← chdec_eq_effectOf]
    exact channelStep_selected hs hp hn
  refine ⟨?code, ?effect⟩
  case code =>
    obtain ⟨row, mem, code, word⟩ := exists_tcRow (tcOf (pairOf p8 c) (pairOf n8 c))
    refine ⟨row.1, word ▸ decode_encode row.1, ?_⟩
    rw [run, exec_tcRows row mem, transition_selected hs hp hn code.symm, code]
  case effect =>
    obtain ⟨row, mem, delta, word⟩ := exists_deltaRow (lut (tcOf (pairOf p8 c) (pairOf n8 c)))
    refine ⟨row.1, word ▸ decode_encode row.1, ?_⟩
    rw [run, exec_deltaRows row mem, countEffect_selected hs hp hn delta.symm, delta]

/-! ### Registers that hold no value -/

theorem withPairs_no_prev {g : Group} {c : Chan} {s : State} (k : Pair → Pair → Result) (hp : s.prevOf g = none) :
    withPairs g c s k = .fault (.prevNoValue g) := by
  simp [withPairs, hp]

theorem withPairs_no_new {g : Group} {c : Chan} {s : State} {p8 : Raw} (k : Pair → Pair → Result)
    (hp : s.prevOf g = some p8) (hn : s.new = none) : withPairs g c s k = .fault .newNoValue := by
  simp [withPairs, hp, hn]

theorem channelStep_no_prev {g : Group} {c : Chan} {s : State} (hs : s.seq = .run g (.ch c)) (hp : s.prevOf g = none) :
    channelStep g c s = .fault (.prevNoValue g) := by
  rw [channelStep, if_pos hs, withPairs_no_prev _ hp]

theorem latchStep_no_new {g : Group} {s : State} (hs : s.seq = .run g .latch) (hn : s.new = none) :
    latchStep g s = .fault .newNoValue := by
  simp [latchStep, hs, hn]

theorem sampleWhole_no_prev {g : Group} {s : State} (hs : s.seq = .run g .rd) (hp : s.prevOf g = none) :
    sampleWhole g s = .fault (.prevNoValue g) := by
  simp [sampleWhole, hs, hp]

/-- Settles O41: each read of a register without a value is the fault named after the register. -/
theorem readingNoValueFaults : Obligations.ReadingNoValueFaults := by
  refine fun s g c => ⟨fun hs hp => ?prev, fun hs ⟨p8, hp⟩ hn => ?new, latchStep_no_new, fun hs hp => ?whole⟩
  case prev =>
    rw [exec_ustepOf]
    exact channelStep_no_prev hs hp
  case new =>
    rw [exec_ustepOf, ustep, channelStep, if_pos hs, withPairs_no_new _ hp hn]
  case whole =>
    rw [exec_sampleOf]
    exact sampleWhole_no_prev hs hp

/-! ### The micro-steps and SAMPLE.g -/

/-- At its position CHc leaves CHDEC's state, at the position the sequencer gives next. -/
theorem channelStep_selected_next {g : Group} {c : Chan} {s : State} {p8 n8 : Raw} {q : Seq}
    (next : nextSeq (.run g (.ch c)) = q) (hp : s.prevOf g = some p8) (hn : s.new = some n8)
    (hs : s.seq = .run g (.ch c)) :
    channelStep g c s = .next { chdec g c (pairOf p8 c) (pairOf n8 c) s with seq := q } := by
  rw [channelStep_selected hs hp hn, State.advance, chdec_seq, hs, next]

/-- Settles O23: each micro-step stands at its position and finds its operands. -/
theorem microStepsReadDecodeAndLatch : Obligations.MicroStepsReadDecodeAndLatch := by
  refine fun g s => ⟨fun hs => ?rd, fun p8 n8 hp hn => ?channels, fun n8 hs hn => ?latch⟩
  case rd => exact ⟨_, readStep_selected hs, rfl, congrArg nextSeq hs, rfl, rfl, rfl, rfl⟩
  case channels =>
    exact ⟨channelStep_selected_next (nextSeq_ch0 g) hp hn, channelStep_selected_next (nextSeq_ch1 g) hp hn,
      channelStep_selected_next (nextSeq_ch2 g) hp hn, channelStep_selected_next (nextSeq_ch3 g) hp hn⟩
  case latch =>
    refine ⟨_, latchStep_selected hs hn, State.prevOf_setPrev_same _ g _, fun h other => ?others, congrArg nextSeq hs,
      rfl, rfl, rfl, rfl, rfl⟩
    case others => exact (State.prevOf_setPrev s g h n8).trans (if_neg other.symm)

/-- Settles O24: LATCH drops the sample it has kept, and every form of SAMPLE.g ends so. -/
theorem newHoldsNoValueAfterLatch : Obligations.NewHoldsNoValueAfterLatch := by
  refine fun g s t => ⟨fun run => ?latch, fun u run => ?whole⟩
  case latch =>
    obtain ⟨n8, -, -, rfl⟩ := latchStep_next run
    rfl
  case whole =>
    rw [exec_sampleOf] at run
    obtain ⟨-, -, new, -⟩ := sampleFrom_next run
    exact new

/-- The SAMPLE in progress at micro-step `u` of group `g`, with the baseline `p8` and the sample `n8`, can be carried on to its
end: exactly the channels from `u` on are decoded, and the sample is kept (log entry 10). -/
def Finishes (g : Group) (u : UStep) (p8 n8 : Raw) : Prop :=
  ∀ s : State, s.seq = .run g u → s.prevOf g = some p8 → s.new = some n8 →
    ∃ t, runUsteps g (ustepsFrom u) s = .next t ∧ t.prevOf g = some n8 ∧
      ∀ c, t.counter g c =
        if UStep.ch c ∈ ustepsFrom u then addDelta (s.counter g c) (channelDelta c p8 n8) else s.counter g c

theorem Finishes.latch (g : Group) (p8 n8 : Raw) : Finishes g .latch p8 n8 :=
  fun s hs _ hn => ⟨_, runUsteps_latch hs hn, State.prevOf_setPrev_same s g n8, fun _ => rfl⟩

/-- Carrying on from CHc is decoding channel `c`, which no later micro-step decodes, and carrying on from there. -/
theorem Finishes.channel {g : Group} {c : Chan} {v : UStep} {p8 n8 : Raw} (next : nextSeq (.run g (.ch c)) = .run g v)
    (first : ustepsFrom (.ch c) = .ch c :: ustepsFrom v) (once : UStep.ch c ∉ ustepsFrom v)
    (rest : Finishes g v p8 n8) : Finishes g (.ch c) p8 n8 := by
  intro s hs hp hn
  obtain ⟨t, run, prev, counter⟩ := rest (chdec g c (pairOf p8 c) (pairOf n8 c) s).advance
    ((congrArg nextSeq hs).trans next) hp hn
  refine ⟨t, ?run, prev, fun e => ?counter⟩
  case run => rw [first, runUsteps_cons_ch hs hp hn, run]
  case counter =>
    rw [counter, State.counter_advance, chdec_counter, first, ← channelDelta]
    by_cases own : e = c
    · subst own
      simp [once]
    · simp [own, Ne.symm own]

theorem finishes_of_ne_rd (g : Group) {u : UStep} (h : u ≠ .rd) (p8 n8 : Raw) : Finishes g u p8 n8 := by
  have latch : Finishes g .latch p8 n8 := .latch g p8 n8
  have ch3 : Finishes g (.ch 3) p8 n8 := latch.channel rfl rfl (by decide)
  have ch2 : Finishes g (.ch 2) p8 n8 := ch3.channel rfl rfl (by decide)
  have ch1 : Finishes g (.ch 1) p8 n8 := ch2.channel rfl rfl (by decide)
  have ch0 : Finishes g (.ch 0) p8 n8 := ch1.channel rfl rfl (by decide)
  rcases u with _ | c | _
  · exact absurd rfl h
  · fin_cases c
    · exact ch0
    · exact ch1
    · exact ch2
    · exact ch3
  · exact latch

/-- Settles O26: carried on, the SAMPLE decodes the channels that are left; the frame is that of every SAMPLE. -/
theorem sampleInProgressIsFinished : Obligations.SampleInProgressIsFinished := by
  intro g u s p8 n8 hu hs hp hn
  obtain ⟨t, run, prev, counter⟩ := finishes_of_ne_rd g hu p8 n8 s hs hp hn
  have whole : sampleFrom g u s = .next t := (sampleFrom_of_ne_rd hu s).trans run
  obtain ⟨-, seq, new, -, otherCounters, otherBaselines, pending, reads, -, kept⟩ := sampleFrom_next whole
  obtain ⟨draws, answers⟩ := kept hu
  exact ⟨t, (exec_sampleOf g u s).trans whole, counter, fun h c other => otherCounters h c other, prev, otherBaselines,
    seq, new, reads, pending, answers, draws⟩

/-- Without a baseline the micro-steps stop at CH0 with the fault of the whole SAMPLE. -/
theorem runUsteps_no_prev {g : Group} {s : State} (hs : s.seq = .run g .rd) (hp : s.prevOf g = none) :
    runUsteps g (ustepsFrom .rd) s = .fault (.prevNoValue g) := by
  have stop : channelStep g 0 (s.answered.setNew s.readGroup).advance = .fault (.prevNoValue g) :=
    channelStep_no_prev (congrArg nextSeq hs) hp
  rw [ustepsFrom, runUsteps, ustep, readStep_selected hs, andThen_next, runUsteps, ustep, stop]
  rfl

/-- Settles O27: the six steps are the micro-steps in order, with the operands or, without a baseline, up to the fault. -/
theorem sixMicroStepsAreTheSample : Obligations.SixMicroStepsAreTheSample := by
  intro g s hs idle
  cases hp : s.prevOf g with
  | some p8 => exact steps_six_eq_exec_sampleOf hs hp idle
  | none =>
    rw [exec_sampleOf]
    calc steps 6 s = runUsteps g (ustepsFrom .rd) s := steps_eq_runUsteps (ustepsFrom_rd_isChain g) hs idle
      _ = .fault (.prevNoValue g) := runUsteps_no_prev hs hp
      _ = sampleFrom g .rd s := (sampleWhole_no_prev hs hp).symm

/-! ### Corner cases of a SAMPLE -/

theorem pairOf_xor (x y : Raw) (c : Chan) : pairOf (x ^^^ y) c = pairOf x c ^^^ pairOf y c := BitVec.extractLsb'_xor ..

theorem pairOf_not (x : Raw) (c : Chan) : pairOf (~~~x) c = ~~~pairOf x c := by
  have ones : pairOf (BitVec.allOnes 8) c = BitVec.allOnes 2 := by revert c; decide
  rw [BitVec.not_def, pairOf_xor, ones, BitVec.not_def]

theorem channelDelta_self (c : Chan) (x : Raw) : channelDelta c x x = .zero := by
  rw [channelDelta, lut_tcOf, classOf_self, classDelta]

theorem channelDelta_not (c : Chan) (x : Raw) : channelDelta c x (~~~x) = .zero := by
  rw [channelDelta, pairOf_not, lut_tcOf, classOf_not, classDelta]

theorem lut_flip_lo (p : Pair) : lut (tcOf p (p ^^^ 0b01)) ≠ .zero := by
  revert p; decide

theorem lut_flip_hi (p : Pair) : lut (tcOf p (p ^^^ 0b10)) ≠ .zero := by
  revert p; decide

/-- The mask 0x55 holds the LO bit of every channel, 0xAA the HI bit (R47). -/
theorem channelDelta_flip_lo (c : Chan) (x : Raw) : channelDelta c x (x ^^^ 0x55) ≠ .zero := by
  have lo : pairOf 0x55 c = 0b01 := by revert c; decide
  rw [channelDelta, pairOf_xor, lo]
  exact lut_flip_lo _

theorem channelDelta_flip_hi (c : Chan) (x : Raw) : channelDelta c x (x ^^^ 0xAA) ≠ .zero := by
  have hi : pairOf 0xAA c = 0b10 := by revert c; decide
  rw [channelDelta, pairOf_xor, hi]
  exact lut_flip_hi _

theorem addDelta_of_ne_zero {d : Delta} (h : d ≠ .zero) (w : CtrWord) : addDelta w d = w + 1 ∨ addDelta w d = w - 1 := by
  cases d with
  | zero => exact absurd rfl h
  | plus => exact .inl rfl
  | minus =>
    rw [BitVec.sub_eq_add_neg]
    exact .inr rfl

/-- Settles O28: what SAMPLE.g adds to a counter is the channel's delta, which is 0 in the first two cases and not 0 in the
other two. -/
theorem sampleCornerCases : Obligations.SampleCornerCases := by
  intro g s p8 hs hp
  obtain ⟨t, run, own, others, -⟩ := sampleDecodesThenKeepsTheSample g s p8 hs hp
  refine ⟨t, run, fun still h c => ?still, fun flipped c => ?flipped⟩
  case still =>
    have zero : channelDelta c p8 s.readGroup = .zero := by
      obtain same | inverted := still
      · rw [same, channelDelta_self]
      · rw [inverted, channelDelta_not]
    by_cases same : h = g
    · rw [same, own, zero, addDelta_zero]
    · exact others h c same
  case flipped =>
    have moves : channelDelta c p8 s.readGroup ≠ .zero := by
      obtain lo | hi := flipped
      · rw [lo]; exact channelDelta_flip_lo c p8
      · rw [hi]; exact channelDelta_flip_hi c p8
    rw [own]
    exact addDelta_of_ne_zero moves _

/-! ### The other agents -/

/-- Settles O31: the address of (g,c) reads the counter of (g,c). -/
theorem snapshotReadsAndChangesNothing : Obligations.SnapshotReadsAndChangesNothing := fun _ _ _ => rfl

/-- RESET leaves the reset state of QDEC, and the other agents' fields as they were. -/
def State.afterReset (s : State) : State :=
  { State.reset with pending := s.pending, answers := s.answers, draws := s.draws, reads := s.reads }

theorem exec_reset (s : State) : exec .reset s = .next s.afterReset := rfl

@[simp] theorem afterReset_counter (s : State) (g : Group) (c : Chan) : s.afterReset.counter g c = 0 := reset_counter g c

@[simp] theorem afterReset_prevOf (s : State) (g : Group) : s.afterReset.prevOf g = none := reset_prevOf g

theorem reset_ctr (k : Fin 16) : State.reset.ctr[k] = 0 := by simp [State.reset]

/-- Settles O33, field by field. -/
theorem stateAfterReset : Obligations.StateAfterReset := ⟨reset_ctr, rfl, reset_prevOf, rfl⟩

/-- Settles O32: RESET leaves the reset state's counters, registers and position. -/
theorem resetPutsTheResetState : Obligations.ResetPutsTheResetState :=
  fun s => ⟨_, exec_reset s, reset_ctr, reset_prevOf, rfl, rfl⟩

/-- Settles O34: RESET does not write the fields of ENV and READER. -/
theorem resetLeavesTheOtherAgents : Obligations.ResetLeavesTheOtherAgents := by
  intro s t run
  obtain rfl := Host.Outcome.next.inj ((exec_reset s).symm.trans run)
  exact ⟨rfl, rfl, rfl, rfl⟩

/-- Settles O21, row by row. -/
theorem sequencerVisitsPositionsInOrder : Obligations.SequencerVisitsPositionsInOrder :=
  ⟨nextSeq_seedA, nextSeq_seedB, nextSeq_seedC, nextSeq_seedD, nextSeq_rd, nextSeq_ch0, nextSeq_ch1, nextSeq_ch2,
    nextSeq_ch3, nextSeq_latch .a, nextSeq_latch .b, nextSeq_latch .c, nextSeq_latch .d⟩

end Sys2Proof.Machine
end

section
/-! PROOFS. Family other, what every operation leaves unchanged: a counter outside the decode of its channel (R15), a baseline
outside SEED and LATCH (R17), and ENV's answers outside `ReadGroup` (R29, R30). -/

namespace Sys2Proof.Machine

theorem setCounter_counter_of_ne {s : State} {h g : Group} {e c : Chan} {w : CtrWord}
    (moved : (s.setCounter h e w).counter g c ≠ s.counter g c) : h = g ∧ e = c := by
  by_contra other
  rw [State.counter_setCounter, if_neg other] at moved
  exact moved rfl

/-- Settles O42: of the operations only a channel decode and a whole SAMPLE write a counter; a decode writes its own. -/
theorem onlyItsChannelDecodeWritesACounter : Obligations.OnlyItsChannelDecodeWritesACounter := by
  intro i s t g c hi run moved
  cases exec_cases run with
  | decoded h e p8 n8 _ seq prev new eq =>
    subst eq
    obtain ⟨rfl, rfl⟩ := setCounter_counter_of_ne moved
    have counter := State.counter_setCounter_same s h e (addDelta (s.counter h e) (channelDelta e p8 n8))
    refine .inl ⟨seq, p8, n8, prev, new, fun zero => moved ?_, counter⟩
    rw [State.counter_advance, counter, zero, addDelta_zero]
  | seeded _ _ _ eq => subst eq; exact absurd rfl moved
  | sampled _ _ _ eq => subst eq; exact absurd rfl moved
  | latched _ _ _ _ _ eq => subst eq; exact absurd rfl moved
  | whole h u row eq =>
    obtain ⟨-, -, -, -, others, -⟩ := sampleFrom_next eq
    have own : g = h := by_contra fun other => moved (others g c other)
    exact .inr ⟨u, own ▸ row⟩
  | read _ _ _ eq => subst eq; exact absurd rfl moved
  | reset row _ => exact absurd row hi

theorem setPrev_prevOf_of_ne {s : State} {h g : Group} {v : Raw} (written : (s.setPrev h v).prevOf g ≠ s.prevOf g) :
    h = g := by
  by_contra other
  rw [State.prevOf_setPrev, if_neg other] at written
  exact written rfl

/-- Settles O43: of the operations only SEED, LATCH and a whole SAMPLE write a baseline, each its own group's. -/
theorem onlySeedAndLatchWriteABaseline : Obligations.OnlySeedAndLatchWriteABaseline := by
  intro i s t g hi run written
  cases exec_cases run with
  | decoded _ _ _ _ _ _ _ _ eq => subst eq; exact absurd rfl written
  | seeded h _ seq eq =>
    subst eq
    obtain rfl : h = g := setPrev_prevOf_of_ne (s := s.answered) written
    exact .inl seq
  | sampled _ _ _ eq => subst eq; exact absurd rfl written
  | latched h n8 _ seq _ eq =>
    subst eq
    obtain rfl : h = g := setPrev_prevOf_of_ne (s := s) written
    exact .inr (.inl seq)
  | whole h u row eq =>
    obtain ⟨-, -, -, -, -, others, -⟩ := sampleFrom_next eq
    have own : g = h := by_contra fun other => written (others g other)
    exact .inr (.inr ⟨u, own ▸ row⟩)
  | read _ _ _ eq => subst eq; exact absurd rfl written
  | reset row _ => exact absurd row hi

/-- The operations that call `ReadGroup` (R30). -/
def callsReadGroup : Instr → Bool
  | .seedA | .seedB | .seedC | .seedD | .ustepRd _ => true
  | .sampleA u | .sampleB u | .sampleC u | .sampleD u => decide (u = .rd)
  | _ => false

@[simp] theorem callsReadGroup_seedOf (g : Group) : callsReadGroup (seedOf g) = true := by cases g <;> rfl

@[simp] theorem callsReadGroup_sampleOf (g : Group) (u : UStep) : callsReadGroup (sampleOf g u) = decide (u = .rd) := by
  cases g <;> rfl

theorem callsReadGroup_of_decode {i : Instr} (row : isChannelDecode i = true) : callsReadGroup i = false := by
  cases i <;> simp_all [isChannelDecode, callsReadGroup]

theorem callsReadGroup_iff {i : Instr} :
    callsReadGroup i = true ↔ ∃ g, i = seedOf g ∨ i = .ustepRd g ∨ i = sampleOf g .rd := by
  constructor
  · intro calls
    cases i with
    | seedA => exact ⟨.a, .inl rfl⟩
    | seedB => exact ⟨.b, .inl rfl⟩
    | seedC => exact ⟨.c, .inl rfl⟩
    | seedD => exact ⟨.d, .inl rfl⟩
    | ustepRd g => exact ⟨g, .inr (.inl rfl)⟩
    | sampleA u => exact ⟨.a, .inr (.inr (congrArg Instr.sampleA (of_decide_eq_true calls)))⟩
    | sampleB u => exact ⟨.b, .inr (.inr (congrArg Instr.sampleB (of_decide_eq_true calls)))⟩
    | sampleC u => exact ⟨.c, .inr (.inr (congrArg Instr.sampleC (of_decide_eq_true calls)))⟩
    | sampleD u => exact ⟨.d, .inr (.inr (congrArg Instr.sampleD (of_decide_eq_true calls)))⟩
    | _ => cases calls
  · rintro ⟨g, rfl | rfl | rfl⟩
    · exact callsReadGroup_seedOf g
    · rfl
    · rw [callsReadGroup_sampleOf, decide_eq_true rfl]

/-- An operation takes one answer of ENV where it calls `ReadGroup`, and else none. -/
theorem exec_answers {i : Instr} {s t : State} (run : exec i s = .next t) :
    if callsReadGroup i then t.draws = s.draws + 1 ∧ t.answers = s.answers.tail
    else t.draws = s.draws ∧ t.answers = s.answers := by
  cases exec_cases run with
  | decoded _ _ _ _ row _ _ _ eq => simp [callsReadGroup_of_decode row, eq]
  | seeded _ row _ eq => simp [row, eq]
  | sampled _ row _ eq => simp [row, eq, callsReadGroup]
  | latched _ _ row _ _ eq => simp [row, eq, callsReadGroup]
  | whole _ u row eq =>
    obtain ⟨-, -, -, -, -, -, -, -, read, kept⟩ := sampleFrom_next eq
    rw [row, callsReadGroup_sampleOf]
    by_cases start : u = .rd
    · simpa [start] using read start
    · simpa [start] using kept start
  | read _ _ row eq => simp [row, eq, callsReadGroup]
  | reset row eq => simp [row, eq, callsReadGroup]

/-- Settles O45: the operations it lists are those that call `ReadGroup`, and each takes one answer. -/
theorem readGroupIsCalledOncePerSample : Obligations.ReadGroupIsCalledOncePerSample := by
  intro i s t run
  have answers := exec_answers run
  refine ⟨fun listed => ?calls, fun unlisted => ?others⟩
  case calls => rwa [if_pos (callsReadGroup_iff.mpr listed)] at answers
  case others =>
    have silent : ¬callsReadGroup i = true := fun calls => by
      obtain ⟨g, listed⟩ := callsReadGroup_iff.mp calls
      obtain ⟨notSeed, notRd, notSample⟩ := unlisted g
      exact listed.elim notSeed (Or.rec notRd notSample)
    rwa [if_neg silent] at answers

end Sys2Proof.Machine
end

section
/-! PROOFS. Family other, the legal states and the runs: every step keeps a state legal (R18, R19, R23) and none faults
(R24); a step is the pending event or CORE's micro-step (R115, R125); CORE advances for ever (R102, R105); the closed form of
the counters after any number of iterations (R26, R103, R104). -/

namespace Sys2Proof.Machine

/-! ### Every step keeps a state legal -/

/-- Settles O46, clause by clause. -/
theorem resetStateIsLegal : Obligations.ResetStateIsLegal :=
  ⟨fun h => by rw [reset_prevOf]; rfl, rfl, fun _ => reset_ctr⟩

namespace Legal

variable {s t : State}

/-- Legality speaks of QDEC's own registers only. -/
theorem congr (legal : Legal s) (prev : t.prev = s.prev) (seq : t.seq = s.seq) (new : t.new = s.new)
    (ctr : t.ctr = s.ctr) : Legal t := by
  obtain ⟨baselines, sample, zero⟩ := legal
  refine ⟨fun h => ?prev, ?new, ?ctr⟩
  case prev => rw [State.prevOf_congr s t prev, seq, baselines]
  case new => rw [new, seq, sample]
  case ctr => rwa [seq, ctr]

theorem after_ustep {g : Group} {u : UStep} (legal : Legal s) (run : ustep g u s = .next t) : Legal t := by
  obtain ⟨hs, -⟩ := ustep_frame run
  obtain ⟨t', run', legal'⟩ := legal.exists_ustep hs
  obtain rfl := Host.Outcome.next.inj (run.symm.trans run')
  exact legal'

theorem after_sampleFrom {g : Group} {u : UStep} (legal : Legal s) (run : sampleFrom g u s = .next t) : Legal t := by
  obtain ⟨hs, seq, new, ⟨v, own⟩, -, others, -⟩ := sampleFrom_next run
  refine ⟨fun h => ?prev, ?new, ?ctr⟩
  case prev =>
    rw [seq]
    by_cases same : h = g
    · rw [same, own]; rfl
    · obtain ⟨p8, hp⟩ := legal.baseline hs h
      rw [others h same, hp]; rfl
  case new => rw [new, seq]; rfl
  case ctr => rw [seq]; exact fun seed => nomatch seed

/-- The pending events are no part of QDEC. -/
theorem fetched (legal : Legal s) : Legal s.fetch.2 := by
  cases idle : s.pending with
  | nil => rwa [fetch_nothing_pending idle]
  | cons r rest =>
    rw [fetch_pending idle]
    exact legal.congr rfl rfl rfl rfl

theorem after_exec {i : Instr} (legal : Legal s) (run : exec i s = .next t) : Legal t := by
  cases exec_cases run with
  | decoded g c p8 n8 _ seq prev new eq =>
    refine legal.after_ustep (g := g) (u := .ch c) ((channelStep_selected seq prev new).trans ?_)
    rw [eq, chdec_eq, channelDelta]
  | seeded g _ seq eq => exact eq ▸ legal.after_seed seq
  | sampled g row _ _ => exact legal.after_ustep (g := g) (u := .rd) (by rwa [row] at run)
  | latched g _ row _ _ _ => exact legal.after_ustep (g := g) (u := .latch) (by rwa [row] at run)
  | whole g u _ eq => exact legal.after_sampleFrom eq
  | read _ _ _ eq => exact eq ▸ legal.congr rfl rfl rfl rfl
  | reset _ eq => exact eq ▸ resetStateIsLegal.congr rfl rfl rfl rfl

theorem after_step (legal : Legal s) (run : step s = .next t) : Legal t := by
  obtain ⟨i, -, run⟩ := step_next run
  exact legal.fetched.after_exec run

theorem after_steps {n : Nat} (legal : Legal s) (run : steps n s = .next t) : Legal t := by
  induction n generalizing s with
  | zero => exact Host.Outcome.next.inj run ▸ legal
  | succ n ih =>
    rw [steps_succ] at run
    obtain ⟨a, first, rest⟩ := andThen_eq_next.mp run
    exact ih (legal.after_step first) rest

end Legal

/-- Settles O47: the event or micro-step runs in a legal state, and each operation leaves one. -/
theorem stepsKeepStatesLegal : Obligations.StepsKeepStatesLegal := fun _ _ legal run => legal.after_step run

/-! ### No step from a legal state faults -/

theorem next_ne_fault (t : State) (e : Fault) : (.next t : Result) ≠ .fault e := by rintro ⟨⟩

theorem refused_ne_fault (r : Refusal) (e : Fault) : (.refused r : Result) ≠ .fault e := by rintro ⟨⟩

theorem ite_ne_fault {p : Prop} [Decidable p] {r r' : Result} {e : Fault} (h : r ≠ .fault e) (h' : r' ≠ .fault e) :
    (if p then r else r') ≠ .fault e := by
  split
  · exact h
  · exact h'

section
variable {s : State} (legal : Legal s) (e : Fault)
include legal

theorem Legal.ustep_ne_fault (g : Group) (u : UStep) : ustep g u s ≠ .fault e := by
  by_cases hs : s.seq = .run g u
  · obtain ⟨t, run, -⟩ := legal.exists_ustep hs
    rw [run]
    exact next_ne_fault t e
  · rw [ustep_unselected hs]
    exact refused_ne_fault _ e

theorem Legal.runUsteps_ne_fault (g : Group) (us : List UStep) : runUsteps g us s ≠ .fault e := by
  induction us generalizing s with
  | nil => exact next_ne_fault s e
  | cons u us ih =>
    rw [runUsteps]
    cases first : ustep g u s with
    | next a => exact ih (legal.after_ustep first)
    | fault e' => exact absurd first (legal.ustep_ne_fault e' g u)
    | refused r => exact refused_ne_fault r e

theorem Legal.sampleFrom_ne_fault (g : Group) (u : UStep) : sampleFrom g u s ≠ .fault e := by
  by_cases hu : u = .rd
  · subst hu
    by_cases hs : s.seq = .run g .rd
    · obtain ⟨p8, hp⟩ := legal.baseline hs g
      rw [sampleFrom, sampleWhole_selected hs hp]
      exact next_ne_fault _ e
    · rw [sampleFrom_unselected hs]
      exact refused_ne_fault _ e
  · rw [sampleFrom_of_ne_rd hu]
    exact legal.runUsteps_ne_fault e g _

omit legal in
theorem seedStep_ne_fault (g : Group) : seedStep g s ≠ .fault e :=
  ite_ne_fault (next_ne_fault _ e) (refused_ne_fault _ e)

/-- At a channel position of a legal state both operands hold a value. -/
theorem Legal.atChannel_ne_fault {k : Group → Chan → Pair → Pair → Result} (hk : ∀ g c p q, k g c p q ≠ .fault e) :
    atChannel s k ≠ .fault e := by
  by_cases away : ∀ g c, s.seq ≠ .run g (.ch c)
  · rw [atChannel_unselected away]
    exact refused_ne_fault _ e
  · obtain ⟨g, c, hs⟩ : ∃ g c, s.seq = .run g (.ch c) := by simpa using away
    obtain ⟨p8, hp⟩ := legal.baseline hs g
    obtain ⟨n8, hn⟩ := legal.sample hs (by simp)
    rw [atChannel_selected hs hp hn]
    exact hk g c _ _

theorem Legal.transition_ne_fault (tc : TransCode) (effect : Group → Chan → State → State) :
    transition tc effect s ≠ .fault e :=
  legal.atChannel_ne_fault e fun _ _ _ _ => ite_ne_fault (next_ne_fault _ e) (refused_ne_fault _ e)

theorem Legal.countEffect_ne_fault (d : Delta) (effect : Group → Chan → State → State) :
    countEffect d effect s ≠ .fault e :=
  legal.atChannel_ne_fault e fun _ _ _ _ => ite_ne_fault (next_ne_fault _ e) (refused_ne_fault _ e)

theorem Legal.exec_ne_fault (i : Instr) : exec i s ≠ .fault e := by
  cases i with
  | stay00 | bwd00_01 | fwd00_10 | amb00_11 | fwd01_00 | stay01 | amb01_10 | bwd01_11 | bwd10_00 | amb10_01 | stay10
  | fwd10_11 | amb11_00 | fwd11_01 | bwd11_10 | stay11 => exact legal.transition_ne_fault e _ _
  | hold | inc | dec => exact legal.countEffect_ne_fault e _ _
  | seedA | seedB | seedC | seedD => exact seedStep_ne_fault e _
  | sampleA u | sampleB u | sampleC u | sampleD u => exact legal.sampleFrom_ne_fault e _ u
  | ustepRd g => exact legal.ustep_ne_fault e g .rd
  | ustepCh0 g => exact legal.ustep_ne_fault e g (.ch 0)
  | ustepCh1 g => exact legal.ustep_ne_fault e g (.ch 1)
  | ustepCh2 g => exact legal.ustep_ne_fault e g (.ch 2)
  | ustepCh3 g => exact legal.ustep_ne_fault e g (.ch 3)
  | ustepLatch g => exact legal.ustep_ne_fault e g .latch
  | rdctr g c => exact next_ne_fault _ e
  | reset => exact next_ne_fault _ e

end

/-- Settles O48: a word that decodes runs in a legal state, where no operation faults; one that does not is refused. -/
theorem legalStatesNeverFault : Obligations.LegalStatesNeverFault := by
  intro s e legal
  unfold step
  split
  · exact legal.fetched.exec_ne_fault e _
  · exact refused_ne_fault _ e

/-! ### One step -/

theorem step_event {s : State} {r : Request} {rest : List Request} {i : Instr} (next : s.pending = r :: rest)
    (word : decode r = .ok i) : step s = exec i { s with pending := rest } := by
  simp only [step, fetch_pending next, word]

theorem step_illegal_word {s : State} {r : Request} {rest : List Request} {e : DecodeError} (next : s.pending = r :: rest)
    (word : decode r = .error e) : step s = .refused (.illegalWord e) := by
  simp only [step, fetch_pending next, word]

/-- Settles O36: a step decodes the word at the head of the pending events. -/
theorem stepRunsThePendingEvent : Obligations.StepRunsThePendingEvent :=
  fun _ _ _ next => ⟨fun _ => step_event next, fun _ => step_illegal_word next⟩

/-- Settles O35: the pending word is RESET's, and RESET runs from any state. -/
theorem resetMayFallAnywhere : Obligations.ResetMayFallAnywhere := by
  intro s rest next
  refine ⟨_, (step_event next (decode_encode .reset)).trans (exec_reset _), ?_⟩
  exact ⟨reset_counter, reset_prevOf, rfl, rfl, rfl⟩

/-- Settles O37: with nothing pending the word fetched is the position's own. -/
theorem stepRunsTheSelectedMicroStep : Obligations.StepRunsTheSelectedMicroStep := by
  refine fun s idle => ⟨fun g hs => ?seed, fun g u hs => ?run⟩
  case seed => rw [step_seed idle hs, exec_seedOf]
  case run => rw [step_run idle hs, exec_ustepOf]

/-- CORE's own step advances the position (R97). -/
theorem step_idle_seq {s t : State} (idle : s.pending = []) (run : step s = .next t) : t.seq = nextSeq s.seq := by
  cases hs : s.seq with
  | seed g =>
    rw [step_seed idle hs] at run
    obtain ⟨-, rfl⟩ := seedStep_next run
    rw [State.advance_seq]
    exact congrArg nextSeq hs
  | run g u =>
    rw [step_run idle hs] at run
    obtain ⟨-, seq, -⟩ := ustep_frame run
    rw [seq, hs]

/-! ### CORE goes round for ever -/

theorem Legal.exists_idle_steps {s : State} (legal : Legal s) (idle : s.pending = []) (n : Nat) :
    ∃ t, steps n s = .next t ∧ t.seq = nextSeq^[n] s.seq ∧ t.pending = [] := by
  induction n generalizing s with
  | zero => exact ⟨s, rfl, rfl, idle⟩
  | succ n ih =>
    obtain ⟨a, first, legal', idle'⟩ := legal.exists_step idle
    obtain ⟨t, rest, seq, idle''⟩ := ih legal' idle'
    refine ⟨t, ?_, ?_, idle''⟩
    · rw [steps_succ, first, andThen_next, rest]
    · rw [seq, step_idle_seq idle first, Function.iterate_succ_apply]

/-- The decode of each channel comes due: `untilDecode` counts down to it. -/
theorem exists_iterate_nextSeq_ch (g : Group) (c : Chan) (q : Seq) : ∃ n, nextSeq^[n] q = .run g (.ch c) := by
  generalize left : untilDecode g c q = m
  induction m generalizing q with
  | zero =>
    refine ⟨0, show q = .run g (.ch c) from by_contra fun early => ?_⟩
    have nearer := untilDecode_nextSeq early
    omega
  | succ m ih =>
    by_cases due : q = .run g (.ch c)
    · exact ⟨0, due⟩
    · have nearer := untilDecode_nextSeq due
      obtain ⟨n, reach⟩ := ih (nextSeq q) (by omega)
      exact ⟨n + 1, reach⟩

theorem nextGroup_surjective (g : Group) : ∃ h, nextGroup h = g := by
  cases g with
  | a => exact ⟨.d, rfl⟩
  | b => exact ⟨.a, rfl⟩
  | c => exact ⟨.b, rfl⟩
  | d => exact ⟨.c, rfl⟩

/-- LATCH comes one position after CH3, and RD of the next group two. -/
theorem exists_iterate_nextSeq_run (g : Group) (u : UStep) (q : Seq) : ∃ n, nextSeq^[n] q = .run g u := by
  cases u with
  | rd =>
    obtain ⟨h, rfl⟩ := nextGroup_surjective g
    obtain ⟨n, reach⟩ := exists_iterate_nextSeq_ch h 3 q
    exact ⟨2 + n, by rw [Function.iterate_add_apply, reach]; rfl⟩
  | ch c => exact exists_iterate_nextSeq_ch g c q
  | latch =>
    obtain ⟨n, reach⟩ := exists_iterate_nextSeq_ch g 3 q
    exact ⟨1 + n, by rw [Function.iterate_add_apply, reach]; rfl⟩

/-- Settles O49: once the events ahead of CORE are over the state is still legal, and from there CORE goes round. -/
theorem coreIsNeverStuck : Obligations.CoreIsNeverStuck := by
  refine ⟨fun s legal idle => ?advances, fun s g u legal ⟨m, a, before, idle⟩ => ?reaches⟩
  case advances =>
    obtain ⟨t, run, -, idle'⟩ := legal.exists_step idle
    exact ⟨t, run, step_idle_seq idle run, idle'⟩
  case reaches =>
    obtain ⟨n, reach⟩ := exists_iterate_nextSeq_run g u a.seq
    obtain ⟨t, run, seq, idle'⟩ := (legal.after_steps before).exists_idle_steps idle n
    refine ⟨m + n, t, ?_, seq.trans reach, idle'⟩
    rw [steps_add, before, andThen_next, run]

/-! ### The closed form of the counters -/

/-- `u` is the iteration boundary after `n` iterations since the reset state `t`, with the samples `x` (R104). -/
structure Iterated (x : Samples) (rest : List Raw) (t : State) (n : Nat) (u : State) : Prop where
  boundary : AtIterationBoundary u
  counter : ∀ g c, u.counter g c = word (deltaSum x g c n)
  prev : ∀ g, u.prevOf g = some (x n g)
  draws : u.draws = t.draws + 4 * (n + 1)
  answers : u.answers = rest
  pending : u.pending = []

theorem addDelta_word (i : Int) (d : Delta) : addDelta (word i) d = word (i + deltaVal d) := by
  rw [addDelta, deltaWord_eq_word, ← word_add]

namespace Iterated

variable {x : Samples} {rest : List Raw} {t : State}

theorem after_boot (reset : PReset t) (idle : t.pending = []) (queue : t.answers = runAnswers x 0 ++ rest) :
    ∃ u, steps 4 t = .next u ∧ Iterated x rest t 0 u := by
  obtain ⟨u, run, d⟩ := reset.exists_seeded idle queue
  refine ⟨u, run, d.seq, fun g c => ?counter, fun g => ?prev, d.draws, d.answers, d.pending⟩
  case counter => exact (State.counter_congr t u d.ctr g c).trans (reset.counter g c)
  case prev => rw [d.prev, if_pos (Group.id g).isLt]

theorem after_iteration {n : Nat} {a : State} (d : Iterated x (roundAnswers (x (n + 1)) ++ rest) t n a) :
    ∃ u, steps 24 a = .next u ∧ Iterated x rest t (n + 1) u := by
  obtain ⟨u, run, boundary, counter, prev, answers, draws, -, idle⟩ :=
    iterationDecodesEveryChannelOnce a (x n) (x (n + 1)) rest d.boundary d.pending d.prev d.answers
  refine ⟨u, run, boundary, fun g c => ?counter, prev, ?draws, answers, idle⟩
  case counter => rw [counter, d.counter, addDelta_word, deltaSum]
  case draws => rw [draws, d.draws]; omega

theorem after_iterations (n : Nat) (reset : PReset t) (idle : t.pending = [])
    (queue : t.answers = runAnswers x n ++ rest) : ∃ u, steps (4 + 24 * n) t = .next u ∧ Iterated x rest t n u := by
  induction n generalizing rest with
  | zero => exact after_boot reset idle queue
  | succ n ih =>
    obtain ⟨a, before, d⟩ := ih (queue.trans (List.append_assoc ..))
    obtain ⟨u, last, d'⟩ := d.after_iteration
    exact ⟨u, by rw [Nat.mul_succ, ← Nat.add_assoc, steps_add, before, andThen_next, last], d'⟩

end Iterated

/-- Settles O53, by induction on the iterations: the seeds leave the empty sum, and each iteration adds its deltas. -/
theorem countersAreTheSumOfDeltas : Obligations.CountersAreTheSumOfDeltas := by
  intro n x rest t reset idle queue
  obtain ⟨u, run, d⟩ := Iterated.after_iterations n reset idle queue
  exact ⟨u, run, d.boundary, d.counter, d.prev, d.draws, d.answers⟩

/-- Settles O54: the counter is the word of the sum, and `val` gives back an integer of the range. -/
theorem counterValueIsTheTrueSumInRange : Obligations.CounterValueIsTheTrueSumInRange := by
  intro n x rest t u g c reset idle queue run
  obtain ⟨u', run', -, counter, -⟩ := countersAreTheSumOfDeltas n x rest t reset idle queue
  obtain rfl := Host.Outcome.next.inj (run.symm.trans run')
  rw [counter]
  exact ⟨fun range => range.inRange.val_word, fun range => range.val_word⟩

/-- Settles O55: the only delta so far is that of a sample against itself. -/
theorem unmovedGroupCountsNothingFirst : Obligations.UnmovedGroupCountsNothingFirst := by
  intro x rest t g reset idle queue unmoved
  obtain ⟨u, run, -, counter, -⟩ := countersAreTheSumOfDeltas 1 x rest t reset idle queue
  refine ⟨u, run, fun c => ?_⟩
  have sum : deltaSum x g c 1 = 0 := by simp [deltaSum, unmoved, channelDelta_self, deltaVal]
  rw [counter, sum]
  rfl

end Sys2Proof.Machine
end

section
/-! PROOFS. Family other, the scripts and the torn words: every script that loads runs to its end (R59), the BOOT and ITER
lines from any state (R60), and what READER can and cannot see (R41, R42). -/

namespace Sys2Proof.Machine

/-! ### Loading -/

theorem load_isSome (s : State) (script : List Line) :
    (s.load script).isSome = (scriptEnd s.seq script).isSome := by
  unfold State.load
  split <;> simp [*]

theorem load_of_scriptEnd {s : State} {script : List Line} {q : Seq} (h : scriptEnd s.seq script = some q) :
    s.load script = some { s with
      pending := script.flatMap lineRequests ++ s.pending
      answers := script.flatMap lineAnswers ++ s.answers } := by
  simp [State.load, h]

/-- A script loads where its first line is well formed and the rest is where that line leads (R59). -/
theorem load_cons_isSome (s : State) (line : Line) (rest : List Line) : (s.load (line :: rest)).isSome = true ↔
    line.wf = true ∧ ∃ q, lineNext s.seq line = some q ∧ (scriptEnd q rest).isSome = true := by
  rw [load_isSome]
  constructor
  · intro loads
    obtain ⟨e, h⟩ := Option.isSome_iff_exists.mp loads
    obtain ⟨wf, q, next, h⟩ := scriptEnd_cons_some h
    exact ⟨wf, q, next, Option.isSome_iff_exists.mpr ⟨e, h⟩⟩
  · rintro ⟨wf, q, next, loads⟩
    rwa [scriptEnd_cons rest wf next]

/-! ### Running events to their end -/

/-- `n` steps from `s` answer a legal state at the position `q`, with the events `p` and the answers `a` still to come. -/
def RunsTo (n : Nat) (s : State) (q : Seq) (p : List Request) (a : List Raw) : Prop :=
  ∃ t, steps n s = .next t ∧ t.seq = q ∧ Legal t ∧ t.pending = p ∧ t.answers = a

namespace RunsTo

variable {m n : Nat} {s : State} {q q' : Seq} {p p' : List Request} {a a' : List Raw}

theorem refl (legal : Legal s) : RunsTo 0 s s.seq s.pending s.answers := ⟨s, rfl, rfl, legal, rfl, rfl⟩

theorem trans (first : RunsTo m s q p a)
    (rest : ∀ t, t.seq = q → Legal t → t.pending = p → t.answers = a → RunsTo n t q' p' a') :
    RunsTo (m + n) s q' p' a' := by
  obtain ⟨t, run, seq, legal, pending, answers⟩ := first
  obtain ⟨u, run', last⟩ := rest t seq legal pending answers
  exact ⟨u, by rw [steps_add, run, andThen_next, run'], last⟩

/-- One pending event, where its operation runs. -/
theorem event {r : Request} {i : Instr} {t : State} (legal : Legal s) (next : s.pending = r :: p) (word : decode r = .ok i)
    (run : exec i { s with pending := p } = .next t) (seq : t.seq = q) (answers : t.answers = a) : RunsTo 1 s q p a := by
  have first : step s = .next t := (step_event next word).trans run
  exact ⟨t, by rw [steps_succ, first, andThen_next, steps_zero], seq, legal.after_step first, exec_pending run, answers⟩

theorem reset {p : List Request} (legal : Legal s) (next : s.pending = encode .reset :: p) :
    RunsTo 1 s (.seed .a) p s.answers :=
  event legal next (decode_encode .reset) (exec_reset _) rfl rfl

theorem snapshot {g : Char} {c : Nat} (legal : Legal s) (next : s.pending = rdctrRequest g c :: p) :
    RunsTo 1 s s.seq p s.answers :=
  event legal next (decode_encode _) rfl rfl rfl

/-- A micro-step at its position: RD takes one answer, the others none. -/
theorem ustep {g : Group} {u : UStep} (legal : Legal s) (hs : s.seq = .run g u)
    (next : s.pending = (Seq.run g u).request :: p) :
    RunsTo 1 s (nextSeq s.seq) p (if u = .rd then s.answers.tail else s.answers) := by
  have legal' : Legal { s with pending := p } := legal.congr rfl rfl rfl rfl
  obtain ⟨t, run, -⟩ := legal'.exists_ustep hs
  obtain ⟨-, seq, -, -, -, -, read, kept⟩ := ustep_frame run
  refine event legal next (decode_run_request g u) ((exec_ustepOf g u _).trans run) seq ?_
  split_ifs with start
  · exact (read start).2
  · exact (kept start).2

end RunsTo

/-! ### Blocks -/

section
variable {k : Nat} {rest body : List InLine}

theorem blockWf_reset : blockWf k (.reset :: rest) = blockWf 0 rest := by cases k <;> rfl

theorem blockWf_rdctr {h : Char} {c : Nat} {w : Int} : blockWf k (.rdctr h c w :: rest) = blockWf k rest := by
  cases k <;> rfl

theorem blockRequests_reset {g : Group} {us : List UStep} :
    blockRequests g us (.reset :: rest) = encode .reset :: blockRequests g [] rest := by cases us <;> rfl

theorem blockRequests_rdctr {g : Group} {us : List UStep} {h : Char} {c : Nat} {w : Int} :
    blockRequests g us (.rdctr h c w :: rest) = rdctrRequest h c :: blockRequests g us rest := by cases us <;> rfl

/-- A block with no micro-step to come performs none (R125). -/
theorem ustep_not_mem_of_blockWf_zero (wf : blockWf 0 body = true) : InLine.ustep ∉ body := by
  induction body with
  | nil => simp
  | cons l rest ih =>
    cases l with
    | ustep => cases wf
    | rdctr h c w => simpa using ih wf
    | reset => simpa using ih wf

end

/-- Where a block ends that would lead to `q`: at (SEED, A, RD) if a RESET abandons it (R59). -/
def blockEnd (q : Seq) (body : List InLine) : Seq := if body.contains .reset then .seed .a else q

@[simp] theorem blockEnd_nil (q : Seq) : blockEnd q [] = q := rfl

@[simp] theorem blockEnd_ustep (q : Seq) (rest : List InLine) : blockEnd q (.ustep :: rest) = blockEnd q rest := by
  simp [blockEnd]

@[simp] theorem blockEnd_rdctr (q : Seq) (h : Char) (c : Nat) (w : Int) (rest : List InLine) :
    blockEnd q (.rdctr h c w :: rest) = blockEnd q rest := by
  simp [blockEnd]

@[simp] theorem blockEnd_reset (q : Seq) (rest : List InLine) :
    blockEnd q (.reset :: rest) = blockEnd (.seed .a) rest := by
  simp [blockEnd]

/-- The answers a block takes that stands at micro-step `u`: the one of its RD, if it performs that. -/
def blockAnswers (u : UStep) (v : Raw) (body : List InLine) : List Raw :=
  if u = .rd ∧ body.contains .ustep then [v] else []

theorem blockAnswers_of_ne_rd {u : UStep} (h : u ≠ .rd) (v : Raw) (body : List InLine) : blockAnswers u v body = [] := by
  simp [blockAnswers, h]

theorem blockAnswers_ustep (u : UStep) (v : Raw) (rest : List InLine) :
    blockAnswers u v (.ustep :: rest) = if u = .rd then [v] else [] := by
  simp [blockAnswers]

theorem blockAnswers_rdctr (u : UStep) (v : Raw) (h : Char) (c : Nat) (w : Int) (rest : List InLine) :
    blockAnswers u v (.rdctr h c w :: rest) = blockAnswers u v rest := by
  simp [blockAnswers]

theorem blockAnswers_of_no_ustep {body : List InLine} (h : InLine.ustep ∉ body) (u : UStep) (v : Raw) :
    blockAnswers u v body = [] := by
  simp [blockAnswers, h]

/-- The rest of a block after its last micro-step, or after a RESET. -/
theorem block_rest_runs {g : Group} {body : List InLine} {s : State} {p : List Request} (wf : blockWf 0 body = true)
    (legal : Legal s) (next : s.pending = blockRequests g [] body ++ p) :
    RunsTo (blockRequests g [] body).length s (blockEnd s.seq body) p s.answers := by
  induction body generalizing s with
  | nil =>
    obtain rfl : s.pending = p := next
    exact .refl legal
  | cons l rest ih =>
    cases l with
    | ustep => cases wf
    | rdctr h c w =>
      rw [blockRequests_rdctr] at next ⊢
      rw [blockEnd_rdctr, List.length_cons, Nat.add_comm]
      refine (RunsTo.snapshot legal next).trans fun t seq legal' pending answers => ?_
      rw [← seq, ← answers]
      exact ih (blockWf_rdctr ▸ wf) legal' pending
    | reset =>
      rw [blockRequests_reset] at next ⊢
      rw [blockEnd_reset, List.length_cons, Nat.add_comm]
      refine (RunsTo.reset legal next).trans fun t seq legal' pending answers => ?_
      rw [← seq, ← answers]
      exact ih (blockWf_reset ▸ wf) legal' pending

/-- A SAMPLE is at its LATCH, or goes on at a micro-step after RD (R97). -/
theorem latch_or_goes_on (g : Group) (u : UStep) : u = .latch ∨
    ∃ v, v ≠ .rd ∧ nextSeq (.run g u) = .run g v ∧ ustepsFrom u = u :: ustepsFrom v := by
  rcases u with _ | c | _
  · exact .inr ⟨.ch 0, by simp, rfl, rfl⟩
  · fin_cases c
    · exact .inr ⟨.ch 1, by simp, rfl, rfl⟩
    · exact .inr ⟨.ch 2, by simp, rfl, rfl⟩
    · exact .inr ⟨.ch 3, by simp, rfl, rfl⟩
    · exact .inr ⟨.latch, by simp, rfl, rfl⟩
  · exact .inl rfl

/-- A block that stands at micro-step `u` of its SAMPLE. -/
theorem block_runs {g : Group} {v : Raw} {body : List InLine} {u : UStep} {s : State} {p : List Request} {a : List Raw}
    (wf : blockWf (ustepsFrom u).length body = true) (legal : Legal s) (hs : s.seq = .run g u)
    (next : s.pending = blockRequests g (ustepsFrom u) body ++ p) (queue : s.answers = blockAnswers u v body ++ a) :
    RunsTo (blockRequests g (ustepsFrom u) body).length s (blockEnd (.run (nextGroup g) .rd) body) p a := by
  obtain ⟨us, first⟩ := ustepsFrom_eq_cons u
  induction body generalizing s u us with
  | nil => rw [first] at wf; cases wf
  | cons l rest ih =>
    cases l with
    | ustep =>
      rw [first] at wf next ⊢
      have taken : (if u = .rd then s.answers.tail else s.answers) = a := by
        rw [queue, blockAnswers_ustep]
        split_ifs <;> rfl
      rw [blockEnd_ustep, blockRequests, List.length_cons, Nat.add_comm]
      refine (RunsTo.ustep legal hs next).trans fun t seq legal' pending answers => ?_
      rw [hs] at seq
      rw [taken] at answers
      obtain rfl | ⟨w, after, goes, split⟩ := latch_or_goes_on g u
      · obtain rfl : [] = us := List.tail_eq_of_cons_eq first
        rw [← answers, ← nextSeq_latch, ← seq]
        exact block_rest_runs wf legal' pending
      · obtain rfl : us = ustepsFrom w := List.tail_eq_of_cons_eq (first.symm.trans split)
        obtain ⟨us', first'⟩ := ustepsFrom_eq_cons w
        exact ih wf legal' (seq.trans goes) pending (by rw [blockAnswers_of_ne_rd after]; exact answers) us' first'
    | rdctr h c w =>
      rw [blockRequests_rdctr] at next ⊢
      rw [blockAnswers_rdctr] at queue
      rw [blockEnd_rdctr, List.length_cons, Nat.add_comm]
      refine (RunsTo.snapshot legal next).trans fun t seq legal' pending answers => ?_
      exact ih (blockWf_rdctr ▸ wf) legal' (seq.trans hs) pending (answers.trans queue) us first
    | reset =>
      rw [blockWf_reset] at wf
      have none : InLine.ustep ∉ InLine.reset :: rest := by simpa using ustep_not_mem_of_blockWf_zero wf
      rw [blockRequests_reset] at next ⊢
      rw [blockAnswers_of_no_ustep none] at queue
      rw [blockEnd_reset, List.length_cons, Nat.add_comm]
      refine (RunsTo.reset legal next).trans fun t seq legal' pending answers => ?_
      rw [← seq, show a = t.answers from (answers.trans queue).symm]
      exact block_rest_runs wf legal' pending

/-! ### Lines and scripts -/

theorem lineNext_sampleSteps (q : Seq) (g : Char) (v : Nat) (body : List InLine) :
    lineNext q (.sampleSteps g v body) =
      if q = .run (groupOfLetter g) .rd then some (blockEnd (.run (nextGroup (groupOfLetter g)) .rd) body) else none := rfl

theorem lineAnswers_sampleSteps (g : Char) (v : Nat) (body : List InLine) :
    lineAnswers (.sampleSteps g v body) = blockAnswers .rd (BitVec.ofNat 8 v) body := by
  simp only [lineAnswers, blockAnswers, true_and]

/-- A line that is well formed at the position runs to where it leads, and takes its own answers. -/
theorem line_runs {s : State} {l : Line} {q : Seq} {p : List Request} {a : List Raw} (legal : Legal s) (wf : l.wf = true)
    (leads : lineNext s.seq l = some q) (next : s.pending = lineRequests l ++ p) (queue : s.answers = lineAnswers l ++ a) :
    RunsTo (lineRequests l).length s q p a := by
  have legal' : Legal { s with pending := p } := legal.congr rfl rfl rfl rfl
  cases l with
  | reset =>
    obtain rfl : .seed .a = q := Option.some.inj leads
    obtain rfl : s.answers = a := queue
    exact .reset legal next
  | seed g v =>
    obtain ⟨hs, rfl⟩ : s.seq = .seed (groupOfLetter g) ∧ nextSeq s.seq = q := by simpa [lineNext] using leads
    exact .event legal next (decode_encode _) ((exec_seedOf _ _).trans (seedStep_selected hs)) rfl (congrArg List.tail queue)
  | sample g v =>
    obtain ⟨hs, rfl⟩ : s.seq = .run (groupOfLetter g) .rd ∧ .run (nextGroup (groupOfLetter g)) .rd = q := by
      simpa [lineNext] using leads
    obtain ⟨p8, hp⟩ := legal'.baseline hs (groupOfLetter g)
    exact .event legal next (decode_encode _) ((exec_sampleOf _ _ _).trans (sampleWhole_selected hs hp)) rfl
      (congrArg List.tail queue)
  | sampleSteps g v body =>
    obtain ⟨hs, rfl⟩ : s.seq = .run (groupOfLetter g) .rd ∧ blockEnd (.run (nextGroup (groupOfLetter g)) .rd) body = q := by
      simpa [lineNext_sampleSteps] using leads
    simp only [Line.wf, Bool.and_eq_true] at wf
    obtain ⟨-, wf⟩ := wf
    rw [lineAnswers_sampleSteps] at queue
    exact block_runs (u := .rd) wf legal hs next queue
  | rdctr g c w =>
    obtain rfl : s.seq = q := Option.some.inj leads
    obtain rfl : s.answers = a := queue
    exact .snapshot legal next

theorem script_runs {s : State} {script : List Line} {q : Seq} {p : List Request} {a : List Raw} (legal : Legal s)
    (wf : scriptEnd s.seq script = some q) (next : s.pending = script.flatMap lineRequests ++ p)
    (queue : s.answers = script.flatMap lineAnswers ++ a) :
    RunsTo (script.flatMap lineRequests).length s q p a := by
  induction script generalizing s with
  | nil =>
    obtain rfl : s.seq = q := Option.some.inj wf
    obtain rfl : s.pending = p := next
    obtain rfl : s.answers = a := queue
    exact .refl legal
  | cons l rest ih =>
    obtain ⟨lineWf, q', leads, wf'⟩ := scriptEnd_cons_some wf
    rw [List.flatMap_cons, List.append_assoc] at next queue
    rw [List.flatMap_cons, List.length_append]
    refine (line_runs legal lineWf leads next queue).trans fun t seq legal' pending answers => ?_
    exact ih legal' (seq ▸ wf') pending answers

theorem loaded_script_runs {s l : State} {script : List Line} (legal : Legal s) (loads : s.load script = some l) :
    ∃ u, steps (script.flatMap lineRequests).length l = .next u ∧ scriptEnd s.seq script = some u.seq ∧ Legal u ∧
      u.pending = s.pending ∧ u.answers = s.answers := by
  obtain ⟨⟨q, wf⟩, rfl⟩ := load_some loads
  have legal' : Legal { s with
      pending := script.flatMap lineRequests ++ s.pending
      answers := script.flatMap lineAnswers ++ s.answers } := legal.congr rfl rfl rfl rfl
  obtain ⟨u, run, rfl, legal'', pending, answers⟩ := script_runs legal' wf rfl rfl
  exact ⟨u, run, wf, legal'', pending, answers⟩

/-! ### The BOOT and ITER lines -/

/-- The words of one operation for each group, in the order of the groups (R97). -/
def roundRequests (f : Group → Instr) : List Request := [encode (f .a), encode (f .b), encode (f .c), encode (f .d)]

theorem roundRequests_drop (f : Group → Instr) (g : Group) :
    (roundRequests f).drop (Group.id g).val = encode (f g) :: (roundRequests f).drop ((Group.id g).val + 1) := by
  cases g <;> rfl

/-- One step per group, in the order of the groups: what each of them carries on by one, four carry on by four. -/
theorem four_groups_step {Done : Nat → State → Prop} {s : State} (start : Done 0 s)
    (next : ∀ g a, Done (Group.id g).val a → ∃ t, step a = .next t ∧ Done ((Group.id g).val + 1) t) :
    ∃ t, steps 4 s = .next t ∧ Done 4 t := by
  have upTo : ∀ n ≤ 4, ∃ t, steps n s = .next t ∧ Done n t := by
    intro n le
    induction n with
    | zero => exact ⟨s, rfl, start⟩
    | succ n ih =>
      obtain ⟨a, before, done⟩ := ih (by omega)
      obtain ⟨g, rfl⟩ := exists_group_id_val le
      obtain ⟨t, last, done'⟩ := next g a done
      exact ⟨t, steps_then_step before last, done'⟩
  exact upTo 4 le_rfl

/-- After a RESET, with SEED words pending: exactly the groups numbered below `n` have their seed, and no counter has moved. -/
structure BootedBelow (x : Group → Raw) (p : List Request) (a : List Raw) (n : Nat) (t : State) : Prop where
  seq : t.seq = nextSeq^[n] (.seed .a)
  counter : ∀ h c, t.counter h c = 0
  prev : ∀ h, (Group.id h).val < n → t.prevOf h = some (x h)
  pending : t.pending = (roundRequests seedOf).drop n ++ p
  answers : t.answers = (roundAnswers x).drop n ++ a

/-- In the iteration that follows, with SAMPLE words pending: exactly the groups numbered below `n` have been sampled. -/
structure FirstSampledBelow (x y : Group → Raw) (p : List Request) (a : List Raw) (n : Nat) (t : State) : Prop where
  seq : t.seq = .run (nextGroup^[n] .a) .rd
  counter : ∀ h c, t.counter h c = if (Group.id h).val < n then addDelta 0 (channelDelta c (x h) (y h)) else 0
  prev : ∀ h, t.prevOf h = some (if (Group.id h).val < n then y h else x h)
  pending : t.pending = (roundRequests fun g => sampleOf g .rd).drop n ++ p
  answers : t.answers = (roundAnswers y).drop n ++ a

section
variable {x y : Group → Raw} {p : List Request} {a : List Raw} {b : State} {g : Group}

theorem BootedBelow.after_seed (d : BootedBelow x p a (Group.id g).val b) :
    ∃ t, step b = .next t ∧ BootedBelow x p a ((Group.id g).val + 1) t := by
  have hs : b.seq = .seed g := d.seq.trans (iterate_nextSeq_seedA g)
  have next : b.pending = encode (seedOf g) :: ((roundRequests seedOf).drop ((Group.id g).val + 1) ++ p) := by
    rw [d.pending, roundRequests_drop, List.cons_append]
  have queue : b.answers = x g :: ((roundAnswers x).drop ((Group.id g).val + 1) ++ a) := by
    rw [d.answers, roundAnswers_drop, List.cons_append]
  have seed : b.readGroup = x g := readGroup_cons queue
  refine ⟨_, (step_event next (decode_encode _)).trans ((exec_seedOf _ _).trans (seedStep_selected hs)), ?_⟩
  refine ⟨?seq, d.counter, fun h below => ?prev, rfl, congrArg List.tail queue⟩
  case seq => rw [Function.iterate_succ_apply', ← d.seq]; rfl
  case prev =>
    refine (State.prevOf_setPrev _ g h _).trans ?_
    split_ifs with own
    · exact congrArg some (own ▸ seed)
    · exact d.prev h ((id_lt_succ_of_ne (Ne.symm own)).mp below)

theorem FirstSampledBelow.after_sample (d : FirstSampledBelow x y p a (Group.id g).val b) :
    ∃ t, step b = .next t ∧ FirstSampledBelow x y p a ((Group.id g).val + 1) t := by
  have hs : b.seq = .run g .rd := by rw [d.seq, iterate_nextGroup]
  have hp : b.prevOf g = some (x g) := by rw [d.prev, if_neg (lt_irrefl _)]
  have next : b.pending =
      encode (sampleOf g .rd) :: ((roundRequests fun g => sampleOf g .rd).drop ((Group.id g).val + 1) ++ p) := by
    rw [d.pending, roundRequests_drop, List.cons_append]
  have queue : b.answers = y g :: ((roundAnswers y).drop ((Group.id g).val + 1) ++ a) := by
    rw [d.answers, roundAnswers_drop, List.cons_append]
  have sample : b.readGroup = y g := readGroup_cons queue
  obtain ⟨t, run, own, others, ownPrev, othersPrev, seq, -, pending, -, answers⟩ :=
    sampleDecodesThenKeepsTheSample g
      { b with pending := (roundRequests fun g => sampleOf g .rd).drop ((Group.id g).val + 1) ++ p } (x g) hs hp
  refine ⟨t, (step_event next (decode_encode _)).trans run, ?_⟩
  refine ⟨?seq, fun h c => ?counter, fun h => ?prev, pending, answers.trans (congrArg List.tail queue)⟩
  case seq => rw [seq, Function.iterate_succ_apply', iterate_nextGroup]
  case counter =>
    by_cases same : h = g
    · subst same
      have before : b.counter h c = 0 := by rw [d.counter, if_neg (lt_irrefl _)]
      rw [if_pos (Nat.lt_succ_self _), ← before, ← sample]
      exact own c
    · simp only [id_lt_succ_of_ne same, ← d.counter]
      exact others h c same
  case prev =>
    by_cases same : h = g
    · subst same
      rw [if_pos (Nat.lt_succ_self _), ← sample]
      exact ownPrev
    · simp only [id_lt_succ_of_ne same, ← d.prev]
      exact othersPrev h same

end

theorem isRawLiteral_toNat (x : Raw) : isRawLiteral x.toNat = true := decide_eq_true x.isLt

/-- The BOOT and ITER lines of the bytes `x` and `y` (R60). -/
def bootIter (x y : Group → Raw) : List Line :=
  boot (x .a).toNat (x .b).toNat (x .c).toNat (x .d).toNat ++ iter (y .a).toNat (y .b).toNat (y .c).toNat (y .d).toNat

theorem scriptEnd_bootIter (x y : Group → Raw) (q : Seq) : scriptEnd q (bootIter x y) = some (.run .a .rd) := by
  simp [bootIter, boot, iter, scriptEnd, Line.wf, lineNext, isRawLiteral_toNat, isGroupLetter, groupOfLetter, nextGroup]

theorem flatMap_lineRequests_bootIter (x y : Group → Raw) : (bootIter x y).flatMap lineRequests =
    encode .reset :: (roundRequests seedOf ++ roundRequests fun g => sampleOf g .rd) := rfl

theorem flatMap_lineAnswers_bootIter (x y : Group → Raw) : (bootIter x y).flatMap lineAnswers =
    roundAnswers x ++ roundAnswers y := by
  simp [bootIter, boot, iter, lineAnswers, roundAnswers]

/-- RESET, the four SEEDs and the four SAMPLEs, one step each. -/
theorem bootIter_runs {x y : Group → Raw} {p : List Request} {a : List Raw} {l : State}
    (next : l.pending = encode .reset :: (roundRequests seedOf ++ ((roundRequests fun g => sampleOf g .rd) ++ p)))
    (queue : l.answers = roundAnswers x ++ (roundAnswers y ++ a)) :
    ∃ u, steps 9 l = .next u ∧ FirstSampledBelow x y p a 4 u := by
  have reset := (step_event next (decode_encode .reset)).trans (exec_reset _)
  have unseeded : BootedBelow x ((roundRequests fun g => sampleOf g .rd) ++ p) (roundAnswers y ++ a) 0
      (State.afterReset { l with pending := roundRequests seedOf ++ ((roundRequests fun g => sampleOf g .rd) ++ p) }) :=
    ⟨rfl, reset_counter, fun _ lt => absurd lt (Nat.not_lt_zero _), rfl, queue⟩
  obtain ⟨b, boot, booted⟩ := four_groups_step unseeded fun _ _ d => d.after_seed
  have unsampled : FirstSampledBelow x y p a 0 b :=
    ⟨booted.seq, booted.counter, fun h => booted.prev h (Group.id h).isLt, booted.pending, booted.answers⟩
  obtain ⟨u, iter, sampled⟩ := four_groups_step unsampled fun _ _ d => d.after_sample
  refine ⟨u, ?_, sampled⟩
  rw [show 9 = 4 + 4 + 1 from rfl, steps_succ, reset, andThen_next, steps_add, boot, andThen_next, iter]

/-- Settles O59: the nine steps of the first clause are RESET, SEEDs and SAMPLEs; for the others each line runs from where it is
well formed to where it leads. -/
theorem bootAndIterLinesRun : Obligations.BootAndIterLinesRun := by
  refine ⟨fun s x y => ?bootIter, fun s l script legal loads => loaded_script_runs legal loads, load_cons_isSome⟩
  case bootIter =>
    have loads := load_of_scriptEnd (scriptEnd_bootIter x y s.seq)
    rw [flatMap_lineRequests_bootIter, flatMap_lineAnswers_bootIter, List.cons_append, List.append_assoc,
      List.append_assoc] at loads
    obtain ⟨u, run, d⟩ := bootIter_runs (l := { s with
      pending := encode .reset :: (roundRequests seedOf ++ ((roundRequests fun g => sampleOf g .rd) ++ s.pending))
      answers := roundAnswers x ++ (roundAnswers y ++ s.answers) }) rfl rfl
    refine ⟨_, u, loads, run, d.seq, fun g c => ?counter, fun g => ?prev, d.pending, d.answers⟩
    case counter => rw [d.counter, if_pos (Group.id g).isLt]
    case prev => rw [d.prev, if_pos (Group.id g).isLt]

/-! ### What READER can see -/

theorem steps_succ_last (n : Nat) (s : State) : steps (n + 1) s = andThen (steps n s) step := by
  have one : steps 1 = step := by
    funext t
    rw [steps_succ]
    cases step t <;> rfl
  rw [steps_add, one]

/-- A snapshot recorded by a step is of the word its counter held before the step (R107). -/
theorem step_reads {s t : State} (run : step s = .next t) {v : Snapshot} (recorded : v ∈ t.reads) :
    v ∈ s.reads ∨ s.counter v.group v.chan = v.word := by
  have fetched : s.fetch.2.ctr = s.ctr ∧ s.fetch.2.reads = s.reads := by
    cases next : s.pending with
    | nil => rw [fetch_nothing_pending next]; exact ⟨rfl, rfl⟩
    | cons r rest => rw [fetch_pending next]; exact ⟨rfl, rfl⟩
  obtain ⟨ctr, reads⟩ := fetched
  obtain ⟨i, -, run⟩ := step_next run
  obtain same | ⟨g, c, -, new⟩ := exec_reads run
  · exact .inl (by rwa [same, reads] at recorded)
  · rw [new, reads, List.mem_cons] at recorded
    obtain rfl | old := recorded
    · exact .inr (State.counter_congr _ _ ctr g c).symm
    · exact .inl old

/-- Every snapshot of a run is old, or of a word its counter held at a boundary of the run (R41). -/
theorem steps_reads {n : Nat} {s t : State} (run : steps n s = .next t) {v : Snapshot} (recorded : v ∈ t.reads) :
    v ∈ s.reads ∨ ∃ k u, k ≤ n ∧ steps k s = .next u ∧ u.counter v.group v.chan = v.word := by
  induction n generalizing t with
  | zero => exact .inl (Host.Outcome.next.inj run ▸ recorded)
  | succ n ih =>
    rw [steps_succ_last] at run
    obtain ⟨a, before, last⟩ := andThen_eq_next.mp run
    obtain old | now := step_reads last recorded
    · exact (ih before old).imp_right fun ⟨k, u, le, held⟩ => ⟨k, u, Nat.le_succ_of_le le, held⟩
    · exact .inr ⟨n, a, Nat.le_succ n, before, now⟩

/-- A mixture whose pieces are whole words is one of the words (R42). -/
theorem mem_of_granuleMix_32 {vs : List CtrWord} {w : CtrWord} (mix : GranuleMix 32 vs w) : w ∈ vs := by
  obtain ⟨v, mem, bits⟩ := mix 0
  have same : w = v := BitVec.eq_of_getLsbD_eq fun j lt => bits ⟨j, lt⟩ (by simpa using lt)
  exact same ▸ mem

theorem getLsbD_byteLane (w : CtrWord) {j : Nat} {b : Fin 4} (lane : j / 8 = b.val) :
    w.getLsbD j = (byteLane w b).getLsbD (j % 8) := by
  have bit : 8 * b.val + j % 8 = j := by omega
  simp [byteLane, Nat.mod_lt, bit]

/-- A word each of whose byte lanes is one of `v`'s or of `v'`'s is a byte-wise mixture of the two (R33, R42). -/
theorem granuleMix_8_of_byteLanes {v v' w : CtrWord} (h : ∀ b, byteLane w b = byteLane v b ∨ byteLane w b = byteLane v' b) :
    GranuleMix 8 [v, v'] w := by
  intro i
  obtain ⟨b, hb⟩ : ∃ b : Fin 4, b.val = i.val / 8 := ⟨⟨i.val / 8, by omega⟩, rfl⟩
  have lane : ∀ u, byteLane w b = byteLane u b → ∀ j : Fin 32, j.val / 8 = i.val / 8 → w.getLsbD j.val = u.getLsbD j.val := by
    intro u same j near
    rw [← hb] at near
    rw [getLsbD_byteLane w near, getLsbD_byteLane u near, same]
  obtain left | right := h b
  · exact ⟨v, by simp, lane v left⟩
  · exact ⟨v', by simp, lane v' right⟩

/-- Settles O60: the examples byte by byte; and each snapshot is of the word its counter held before the step that took it. -/
theorem onlyBrokenReadsTear : Obligations.OnlyBrokenReadsTear := by
  refine ⟨⟨?carry, ?lost, ?sign⟩, fun vs w mix => mem_of_granuleMix_32 mix, fun n s t values empty run contract v goes => ?held⟩
  case carry => exact granuleMix_8_of_byteLanes (by decide)
  case lost => exact granuleMix_8_of_byteLanes (by decide)
  case sign => exact granuleMix_8_of_byteLanes (by decide)
  case held =>
    obtain old | held := steps_reads run (contract v goes)
    · rw [empty] at old
      cases old
    · exact held

end Sys2Proof.Machine
end
